-- ==== Sys2Proof/Word.lean ====
section
/-! DEFINITION. Word.lean: words, characters, and the views and truncation of 00_scope.md R69. -/

namespace Sys2Proof

/-- A character of a line: an 8-bit value (R43, R69). -/
abbrev Byte := BitVec 8

/-- A 32-bit word (R69). A slot of the Register File holds one (R11). -/
abbrev Word := BitVec 32

/-- A line handed to one `execute` transaction: a finite sequence of characters (R43). -/
abbrev Line := List Byte

/-- A possibly empty sequence of characters; `[]` is the empty token (R69). -/
abbrev Token := List Byte

/-- `u(v)`: the word as an unsigned integer, 0 to 2^32 - 1 (R69). -/
def uval (v : Word) : Int := (v.toNat : Int)

/-- `s(v)`: the word as a two's-complement signed integer (R69). -/
def sval (v : Word) : Int := v.toInt

/-- `w32(n)`: the word whose unsigned value is `n mod 2^32` (R69). -/
def w32 (n : Int) : Word := BitVec.ofInt 32 n

end Sys2Proof
end

