-- ==== Sys2Proof/Machine/Flags.lean ====
section
/-! DEFINITION. Machine/Flags.lean: the machine has no flags, condition codes or predicate registers
(10_state.md R21), so there is no flag to compute; a comparison's result is a word (R148). -/

namespace Sys2Proof.Machine

/-- "result stored as 0/1": 0x00000001 when the comparison holds, 0x00000000 when it does not (R148). -/
def compareWord (holds : Bool) : Word := if holds then 1 else 0

end Sys2Proof.Machine
end

