-- ==== Sys2Proof/Config.lean ====
section
/-! DEFINITION. Config.lean: the parameters of 00_scope.md R7 that the spec leaves to configuration,
and the constants the source fixes. The defaults stand in Machine/Defaults.lean. -/

namespace Sys2Proof

/-- DIV_ROUNDING: how the signed quotient is rounded (R7, D18, U4). `trunc` and `floor` are R69's. -/
inductive Rounding where
  /-- `trunc(p / q)`, the decision D18. -/
  | towardZero
  /-- `floor(p / q)`. -/
  | towardMinusInfinity
  deriving DecidableEq, Repr

/-- SLOT8_DISPLAY_NAME: "whether the dump shows `s0/fp`, `s0` or `fp`" (R12, D24). -/
inductive Slot8Name where
  | s0SlashFp
  | s0
  | fp
  deriving DecidableEq, Repr

/-- HEX_DIGIT_CASE of the dump (R7, D24). -/
inductive HexCase where
  | lower
  | upper
  deriving DecidableEq, Repr

/-- The parameters a model takes as an argument (R7), fixed before reset and never state (R9, D36). -/
structure Config where
  /-- LINE_MAX: the longest line accepted, in characters; `none` is unbounded (R43, D3, U7). -/
  lineMax : Option Nat
  /-- WHITESPACE: the characters of class whitespace (R44, D2, U6). -/
  whitespace : List Byte
  /-- ARITY_NOOP: the required operand count of each NOOP mnemonic, by its index 0 to 39 in the
  table of R52; a count is 0, 1, 2 or 3 (R53, D5, U1). -/
  arityNoop : Vector (Fin 4) 40
  /-- SHAMT_MASK: the bits of the shift amount used (R147, D15, U2). -/
  shamtMask : Word
  /-- SLTU_IMM_WIDTH: the width the sltu/sltiu immediate is widened to (R63, D17, U3). -/
  sltuImmWidth : Nat
  /-- DIV_ROUNDING (R174, R176, D18, U4). -/
  divRounding : Rounding
  /-- DIV_OVERFLOW, quotient of -2^31 by -1 (R174, D19, U5). -/
  divOverflowQuot : Word
  /-- DIV_OVERFLOW, remainder of -2^31 by -1 (R176, D19, U5). -/
  divOverflowRem : Word
  /-- REG_CASE_SENSITIVE (R57, D8, U8). -/
  regCaseSensitive : Bool
  /-- REG_LEADING_ZERO_OK (R57, D9, U8). -/
  regLeadingZeroOk : Bool
  /-- IMM_NEG_ZERO_OK (R61, D11, U8). -/
  immNegZeroOk : Bool
  /-- SLOT8_DISPLAY_NAME (R12, D24). -/
  slot8DisplayName : Slot8Name
  /-- HEX_DIGIT_CASE (R18, D24). -/
  hexDigitCase : HexCase
  deriving DecidableEq, Repr

/-- NREG: the number of slots of the Register File (R7, R10). -/
abbrev nReg : Nat := 32

/-- IMM_MIN, the least immediate literal (R7, R61). -/
def immMin : Int := -2048

/-- IMM_MAX, the greatest immediate literal (R7, R61). -/
def immMax : Int := 2047

/-- ARITY of the 28 EXEC mnemonics (R7, R53). -/
def arityExec : Nat := 3

end Sys2Proof
end

