-- ==== Sys2Proof/Machine/Defaults.lean ====
section
/-! DEFINITION. Machine/Defaults.lean: the default of every parameter, as the table of 00_scope.md R7
shows it. -/

namespace Sys2Proof.Machine

/-- WHITESPACE: 0x20, 0x09, 0x0A, 0x0B, 0x0C, 0x0D (R44, D2). Log entry 8. -/
def defaultWhitespace : List Byte := [0x20, 0x09, 0x0A, 0x0B, 0x0C, 0x0D]

/-- ARITY_NOOP: the "arity" column of R52 for indices 0 to 39 (R53, D5). DESIGN CHOICE, log entry 7. -/
def defaultArityNoop : Vector (Fin 4) 40 :=
  #v[0, 0, 0, 0,                     -- ret nop ecall ebreak
     1, 1, 1, 1, 1, 1,               -- j call tail jal jr jalr
     3, 3, 3, 3, 3, 3, 3, 3, 3, 3,   -- beq bne blt bge bltu bgeu bgt ble bgtu bleu
     2, 2, 2, 2, 2, 2, 2, 2,         -- lb lh lw lbu lhu sb sh sw
     2, 2, 2, 2, 2, 2,               -- li lui auipc mv sext.w neg
     2, 2, 2, 2, 2, 2]               -- negw seqz snez not sltz sgtz

/-- The defaults of R7. DESIGN CHOICE for the OPEN parameters; log entries 7 to 13, 15, 16, 20. -/
def defaultConfig : Config where
  lineMax := none
  whitespace := defaultWhitespace
  arityNoop := defaultArityNoop
  shamtMask := 0x1F
  sltuImmWidth := 16
  divRounding := .towardZero
  divOverflowQuot := 0x80000000
  divOverflowRem := 0
  regCaseSensitive := true
  regLeadingZeroOk := false
  immNegZeroOk := false
  slot8DisplayName := .s0SlashFp
  hexDigitCase := .lower

end Sys2Proof.Machine
end

