-- ==== Sys2Proof/Syntax.lean ====
section
/-! DEFINITION. Syntax.lean: the instruction record of one line (R51), the instructions (one
constructor per row of spec/opcode_table.json, in the order of R52), the errors (R181) and the
outcome of a transaction (R80). -/

namespace Sys2Proof

/-- The class of a character (R44): every character belongs to exactly one. -/
inductive CharClass where
  | comma
  | whitespace
  | commentMarker
  | digit
  | minus
  | other
  deriving DecidableEq, Repr

/-- The three operand fields of the instruction record; a field with no token is `[]` (R48, R51). -/
structure Operands where
  op1 : Token
  op2 : Token
  op3 : Token
  deriving DecidableEq, Repr

/-- `count` of R51: the number of leading non-empty operand tokens. -/
def Operands.count (o : Operands) : Nat :=
  if o.op1 = [] then 0 else if o.op2 = [] then 1 else if o.op3 = [] then 2 else 3

/-- `gap` of R51: some `opj` is non-empty while an `opi` with `i < j` is empty. -/
def Operands.gap (o : Operands) : Bool :=
  (o.op1 = [] && (o.op2 ≠ [] || o.op3 ≠ [])) || (o.op2 = [] && o.op3 ≠ [])

/-- One constructor per row of spec/opcode_table.json. Each carries the operand tokens of its record
unresolved, as the mnemonic alone selects the row (R52) and the rest of the line's decode, with its
errors, belongs to the instruction (R54, R84). Log entry 22. -/
inductive Instr where
  -- Control transfer (R52 indices 0 to 19), all NOOP; 41_control_transfer.md.
  | ret (o : Operands)
  | nop (o : Operands)
  | ecall (o : Operands)
  | ebreak (o : Operands)
  | j (o : Operands)
  | call (o : Operands)
  | tail (o : Operands)
  | jal (o : Operands)
  | jr (o : Operands)
  | jalr (o : Operands)
  | beq (o : Operands)
  | bne (o : Operands)
  | blt (o : Operands)
  | bge (o : Operands)
  | bltu (o : Operands)
  | bgeu (o : Operands)
  | bgt (o : Operands)
  | ble (o : Operands)
  | bgtu (o : Operands)
  | bleu (o : Operands)
  -- Memory (indices 20 to 27), all NOOP; 42_memory_access.md.
  | lb (o : Operands)
  | lh (o : Operands)
  | lw (o : Operands)
  | lbu (o : Operands)
  | lhu (o : Operands)
  | sb (o : Operands)
  | sh (o : Operands)
  | sw (o : Operands)
  -- Immediate, move, pseudo (indices 28 to 39), all NOOP; 43_immediate_move_pseudo.md.
  | li (o : Operands)
  | lui (o : Operands)
  | auipc (o : Operands)
  | mv (o : Operands)
  | sextW (o : Operands)
  | neg (o : Operands)
  | negw (o : Operands)
  | seqz (o : Operands)
  | snez (o : Operands)
  | not (o : Operands)
  | sltz (o : Operands)
  | sgtz (o : Operands)
  -- Arithmetic and logic (indices 40 to 59), all EXEC of format A3S; 44_arith_logic.md.
  | add (o : Operands)
  | addi (o : Operands)
  | sub (o : Operands)
  | subi (o : Operands)
  | xor (o : Operands)
  | xori (o : Operands)
  | or (o : Operands)
  | ori (o : Operands)
  | and (o : Operands)
  | andi (o : Operands)
  | sll (o : Operands)
  | slli (o : Operands)
  | srl (o : Operands)
  | srli (o : Operands)
  | sra (o : Operands)
  | srai (o : Operands)
  | slt (o : Operands)
  | slti (o : Operands)
  | sltu (o : Operands)
  | sltiu (o : Operands)
  -- Multiply and divide (indices 60 to 67), all EXEC of format A3R; 45_muldiv.md.
  | mul (o : Operands)
  | mulh (o : Operands)
  | mulsu (o : Operands)
  | mulu (o : Operands)
  | div (o : Operands)
  | divu (o : Operands)
  | rem (o : Operands)
  | remu (o : Operands)
  deriving DecidableEq, Repr

/-- The operand tokens of the instruction's record. -/
def Instr.operands (i : Instr) : Operands :=
  match i with
  | .ret o | .nop o | .ecall o | .ebreak o | .j o | .call o
  | .tail o | .jal o | .jr o | .jalr o | .beq o | .bne o
  | .blt o | .bge o | .bltu o | .bgeu o | .bgt o | .ble o
  | .bgtu o | .bleu o
  | .lb o | .lh o | .lw o | .lbu o | .lhu o | .sb o
  | .sh o | .sw o
  | .li o | .lui o | .auipc o | .mv o | .sextW o | .neg o
  | .negw o | .seqz o | .snez o | .not o | .sltz o | .sgtz o
  | .add o | .addi o | .sub o | .subi o | .xor o | .xori o
  | .or o | .ori o | .and o | .andi o | .sll o | .slli o
  | .srl o | .srli o | .sra o | .srai o | .slt o | .slti o
  | .sltu o | .sltiu o
  | .mul o | .mulh o | .mulsu o | .mulu o | .div o | .divu o
  | .rem o | .remu o => o

/-- The table index of R52, 0 to 67, "for reference only" (D32). -/
def Instr.index (i : Instr) : Fin 68 :=
  match i with
  | .ret _ => 0 | .nop _ => 1 | .ecall _ => 2 | .ebreak _ => 3
  | .j _ => 4 | .call _ => 5 | .tail _ => 6 | .jal _ => 7
  | .jr _ => 8 | .jalr _ => 9 | .beq _ => 10 | .bne _ => 11
  | .blt _ => 12 | .bge _ => 13 | .bltu _ => 14 | .bgeu _ => 15
  | .bgt _ => 16 | .ble _ => 17 | .bgtu _ => 18 | .bleu _ => 19
  | .lb _ => 20 | .lh _ => 21 | .lw _ => 22 | .lbu _ => 23
  | .lhu _ => 24 | .sb _ => 25 | .sh _ => 26 | .sw _ => 27
  | .li _ => 28 | .lui _ => 29 | .auipc _ => 30 | .mv _ => 31
  | .sextW _ => 32 | .neg _ => 33 | .negw _ => 34 | .seqz _ => 35
  | .snez _ => 36 | .not _ => 37 | .sltz _ => 38 | .sgtz _ => 39
  | .add _ => 40 | .addi _ => 41 | .sub _ => 42 | .subi _ => 43
  | .xor _ => 44 | .xori _ => 45 | .or _ => 46 | .ori _ => 47
  | .and _ => 48 | .andi _ => 49 | .sll _ => 50 | .slli _ => 51
  | .srl _ => 52 | .srli _ => 53 | .sra _ => 54 | .srai _ => 55
  | .slt _ => 56 | .slti _ => 57 | .sltu _ => 58 | .sltiu _ => 59
  | .mul _ => 60 | .mulh _ => 61 | .mulsu _ => 62 | .mulu _ => 63
  | .div _ => 64 | .divu _ => 65 | .rem _ => 66 | .remu _ => 67

/-- The six kinds of decode error with what each carries (R181; payloads D22). -/
inductive DecodeError where
  /-- The mnemonic token equals no table entry (R182). -/
  | unknownInstruction (mnemonic : Token)
  /-- The operand count differs from the mnemonic's, or the record has a gap (R183). -/
  | arityError (mnemonic : Token)
  /-- An empty token was given to register resolution, at operand position 1, 2 or 3 (R184). -/
  | emptyOperand (position : Nat)
  /-- A non-empty token that is not a register name (R184). -/
  | malformedRegisterName (token : Token)
  /-- A token sent to `immval` and not accepted (R185). -/
  | immediateOutOfRange (token : Token)
  /-- A Register File operation with an index above 31 (R186). -/
  | outOfRange (index : Nat)
  deriving DecidableEq, Repr

/-- What port EXEC carries out at the end of a transaction (R6, R80). -/
inductive Result where
  | ok
  | err (e : DecodeError)
  deriving DecidableEq, Repr

end Sys2Proof
end

