-- ==== Sys2Proof/Machine/Chars.lean ====
section
/-! DEFINITION. Machine/Chars.lean: the character classes of 30_encoding.md R44. -/

namespace Sys2Proof.Machine

/-- `,`, 0x2C. -/
def chComma : Byte := 0x2C
/-- Space, 0x20: what a comma becomes (R46). -/
def chSpace : Byte := 0x20
/-- `-`, 0x2D. -/
def chMinus : Byte := 0x2D
/-- `#`, 0x23. -/
def chHash : Byte := 0x23
/-- `;`, 0x3B. -/
def chSemicolon : Byte := 0x3B
/-- `0`, 0x30. -/
def chZero : Byte := 0x30

/-- `0` to `9`, 0x30 to 0x39 (R44). -/
def isDigit (b : Byte) : Bool := 0x30 ≤ b.toNat && b.toNat ≤ 0x39

/-- A comment marker, `#` or `;` (R44). -/
def isMarker (b : Byte) : Bool := b = chHash || b = chSemicolon

/-- The one class of a character (R44); which characters are whitespace is the parameter
WHITESPACE. -/
def charClass (c : Config) (b : Byte) : CharClass :=
  if b = chComma then .comma
  else if b ∈ c.whitespace then .whitespace
  else if isMarker b then .commentMarker
  else if isDigit b then .digit
  else if b = chMinus then .minus
  else .other

/-- Whitespace, as the tokenizer uses it (R46, R48). -/
def isSpace (c : Config) (b : Byte) : Bool := b ∈ c.whitespace

/-- "Only commas and whitespace separate"; every other class is a token character (R44). -/
def isTokenChar (c : Config) (b : Byte) : Bool :=
  charClass c b ≠ .comma && charClass c b ≠ .whitespace

/-- The numeric value of a digit character. -/
def digitVal (b : Byte) : Nat := b.toNat - 0x30

/-- The lower-case form of an ASCII letter; any other character is unchanged. Used only when
REG_CASE_SENSITIVE is false (D8; DESIGN CHOICE, log entry 30). -/
def lowerCase (b : Byte) : Byte :=
  if 0x41 ≤ b.toNat && b.toNat ≤ 0x5A then b + 0x20 else b

end Sys2Proof.Machine
end

