-- ==== Sys2Proof/WellFormed.lean ====
section
/-! DEFINITION. WellFormed.lean: which instructions a line can stand for, and which parameter values
keep the character classes of R44 apart. -/

namespace Sys2Proof

/-- A token a line can hold in an operand field: token characters only, and no comment marker first,
since stage 3 would clear it (R44, R48, R50). The empty token is an absent field. -/
def Token.wf (c : Config) (t : Token) : Bool :=
  t.all (Machine.isTokenChar c) && !(t.head?.any Machine.isMarker)

/-- A record that a line can produce: no gap (R51), and every field a token (R44, R50). -/
def Operands.wf (c : Config) (o : Operands) : Bool :=
  !o.gap && Token.wf c o.op1 && Token.wf c o.op2 && Token.wf c o.op3

/-- An instruction a line can stand for. Whether it is then accepted (R54, R84) is no part of this:
the CORE answers every such line. -/
def Instr.wf (c : Config) (i : Instr) : Bool := i.operands.wf c

/-- Parameter values under which the rules keep their sense: the space that a comma becomes (R46) is
whitespace, WHITESPACE holds none but the six characters of D2 (U6), and the SLTU immediate keeps its
12 bits and fits a word (R63, U3). -/
def Config.wf (c : Config) : Bool :=
  decide (Machine.chSpace ∈ c.whitespace)
    && c.whitespace.all (fun b => decide (b ∈ [0x20, 0x09, 0x0A, 0x0B, 0x0C, 0x0D]))
    && decide (12 ≤ c.sltuImmWidth) && decide (c.sltuImmWidth ≤ 32)

end Sys2Proof
end

