-- ==== Sys2Proof/Decode.lean ====
section
/-! DEFINITION. Decode.lean: stages 1 to 5 of the decode of a line (30_encoding.md R45 to R52), the
mnemonic table of R52, and the encoder. -/

namespace Sys2Proof

/-- The operand format of a row, with the index of ARITY_NOOP for a NOOP row (R53, R55, R82). -/
inductive Format where
  /-- NOOP: N0 to N3, by the count ARITY_NOOP gives this index. -/
  | noop (k : Fin 40)
  /-- EXEC, second source by the shape of op3. -/
  | a3s
  /-- EXEC, three registers. -/
  | a3r
  deriving DecidableEq, Repr

/-- One entry of the mnemonic table: the characters of the mnemonic token (the column "ASCII bytes" of
R52), its format, and the operation it selects. -/
structure Row where
  token : Token
  format : Format
  build : Operands → Instr

/-- Control transfer (R52 indices 0 to 19), all NOOP; 41_control_transfer.md. -/
def controlRows : List Row := [
  ⟨[0x72, 0x65, 0x74], .noop 0, .ret⟩,
  ⟨[0x6E, 0x6F, 0x70], .noop 1, .nop⟩,
  ⟨[0x65, 0x63, 0x61, 0x6C, 0x6C], .noop 2, .ecall⟩,
  ⟨[0x65, 0x62, 0x72, 0x65, 0x61, 0x6B], .noop 3, .ebreak⟩,
  ⟨[0x6A], .noop 4, .j⟩,
  ⟨[0x63, 0x61, 0x6C, 0x6C], .noop 5, .call⟩,
  ⟨[0x74, 0x61, 0x69, 0x6C], .noop 6, .tail⟩,
  ⟨[0x6A, 0x61, 0x6C], .noop 7, .jal⟩,
  ⟨[0x6A, 0x72], .noop 8, .jr⟩,
  ⟨[0x6A, 0x61, 0x6C, 0x72], .noop 9, .jalr⟩,
  ⟨[0x62, 0x65, 0x71], .noop 10, .beq⟩,
  ⟨[0x62, 0x6E, 0x65], .noop 11, .bne⟩,
  ⟨[0x62, 0x6C, 0x74], .noop 12, .blt⟩,
  ⟨[0x62, 0x67, 0x65], .noop 13, .bge⟩,
  ⟨[0x62, 0x6C, 0x74, 0x75], .noop 14, .bltu⟩,
  ⟨[0x62, 0x67, 0x65, 0x75], .noop 15, .bgeu⟩,
  ⟨[0x62, 0x67, 0x74], .noop 16, .bgt⟩,
  ⟨[0x62, 0x6C, 0x65], .noop 17, .ble⟩,
  ⟨[0x62, 0x67, 0x74, 0x75], .noop 18, .bgtu⟩,
  ⟨[0x62, 0x6C, 0x65, 0x75], .noop 19, .bleu⟩]

/-- Memory (indices 20 to 27), all NOOP; 42_memory_access.md. -/
def memoryRows : List Row := [
  ⟨[0x6C, 0x62], .noop 20, .lb⟩,
  ⟨[0x6C, 0x68], .noop 21, .lh⟩,
  ⟨[0x6C, 0x77], .noop 22, .lw⟩,
  ⟨[0x6C, 0x62, 0x75], .noop 23, .lbu⟩,
  ⟨[0x6C, 0x68, 0x75], .noop 24, .lhu⟩,
  ⟨[0x73, 0x62], .noop 25, .sb⟩,
  ⟨[0x73, 0x68], .noop 26, .sh⟩,
  ⟨[0x73, 0x77], .noop 27, .sw⟩]

/-- Immediate, move, pseudo (indices 28 to 39), all NOOP; 43_immediate_move_pseudo.md. -/
def pseudoRows : List Row := [
  ⟨[0x6C, 0x69], .noop 28, .li⟩,
  ⟨[0x6C, 0x75, 0x69], .noop 29, .lui⟩,
  ⟨[0x61, 0x75, 0x69, 0x70, 0x63], .noop 30, .auipc⟩,
  ⟨[0x6D, 0x76], .noop 31, .mv⟩,
  ⟨[0x73, 0x65, 0x78, 0x74, 0x2E, 0x77], .noop 32, .sextW⟩,
  ⟨[0x6E, 0x65, 0x67], .noop 33, .neg⟩,
  ⟨[0x6E, 0x65, 0x67, 0x77], .noop 34, .negw⟩,
  ⟨[0x73, 0x65, 0x71, 0x7A], .noop 35, .seqz⟩,
  ⟨[0x73, 0x6E, 0x65, 0x7A], .noop 36, .snez⟩,
  ⟨[0x6E, 0x6F, 0x74], .noop 37, .not⟩,
  ⟨[0x73, 0x6C, 0x74, 0x7A], .noop 38, .sltz⟩,
  ⟨[0x73, 0x67, 0x74, 0x7A], .noop 39, .sgtz⟩]

/-- Arithmetic and logic (indices 40 to 59), all EXEC of format A3S; 44_arith_logic.md. -/
def arithRows : List Row := [
  ⟨[0x61, 0x64, 0x64], .a3s, .add⟩,
  ⟨[0x61, 0x64, 0x64, 0x69], .a3s, .addi⟩,
  ⟨[0x73, 0x75, 0x62], .a3s, .sub⟩,
  ⟨[0x73, 0x75, 0x62, 0x69], .a3s, .subi⟩,
  ⟨[0x78, 0x6F, 0x72], .a3s, .xor⟩,
  ⟨[0x78, 0x6F, 0x72, 0x69], .a3s, .xori⟩,
  ⟨[0x6F, 0x72], .a3s, .or⟩,
  ⟨[0x6F, 0x72, 0x69], .a3s, .ori⟩,
  ⟨[0x61, 0x6E, 0x64], .a3s, .and⟩,
  ⟨[0x61, 0x6E, 0x64, 0x69], .a3s, .andi⟩,
  ⟨[0x73, 0x6C, 0x6C], .a3s, .sll⟩,
  ⟨[0x73, 0x6C, 0x6C, 0x69], .a3s, .slli⟩,
  ⟨[0x73, 0x72, 0x6C], .a3s, .srl⟩,
  ⟨[0x73, 0x72, 0x6C, 0x69], .a3s, .srli⟩,
  ⟨[0x73, 0x72, 0x61], .a3s, .sra⟩,
  ⟨[0x73, 0x72, 0x61, 0x69], .a3s, .srai⟩,
  ⟨[0x73, 0x6C, 0x74], .a3s, .slt⟩,
  ⟨[0x73, 0x6C, 0x74, 0x69], .a3s, .slti⟩,
  ⟨[0x73, 0x6C, 0x74, 0x75], .a3s, .sltu⟩,
  ⟨[0x73, 0x6C, 0x74, 0x69, 0x75], .a3s, .sltiu⟩]

/-- Multiply and divide (indices 60 to 67), all EXEC of format A3R; 45_muldiv.md. -/
def mulDivRows : List Row := [
  ⟨[0x6D, 0x75, 0x6C], .a3r, .mul⟩,
  ⟨[0x6D, 0x75, 0x6C, 0x68], .a3r, .mulh⟩,
  ⟨[0x6D, 0x75, 0x6C, 0x73, 0x75], .a3r, .mulsu⟩,
  ⟨[0x6D, 0x75, 0x6C, 0x75], .a3r, .mulu⟩,
  ⟨[0x64, 0x69, 0x76], .a3r, .div⟩,
  ⟨[0x64, 0x69, 0x76, 0x75], .a3r, .divu⟩,
  ⟨[0x72, 0x65, 0x6D], .a3r, .rem⟩,
  ⟨[0x72, 0x65, 0x6D, 0x75], .a3r, .remu⟩]

/-- The mnemonic table of R52, 68 entries in list order. -/
def mnemonicTable : List Row := controlRows ++ memoryRows ++ pseudoRows ++ arithRows ++ mulDivRows

/-- Stage 5, resolve mnemonic: exact string equality with an entry (R52). -/
def lookup (mn : Token) : Option Row := mnemonicTable.find? (fun r => decide (r.token = mn))

/-- The table row of an instruction (D32's index). -/
def Instr.row (i : Instr) : Row := mnemonicTable[i.index.val]'(i.index.isLt)

/-- The mnemonic token of an instruction. -/
def Instr.mnemonic (i : Instr) : Token := i.row.token

/-- The required operand count: ARITY_NOOP for a NOOP mnemonic, 3 for an EXEC mnemonic (R53). -/
def Format.arity (c : Config) (f : Format) : Nat :=
  match f with
  | .noop k => (c.arityNoop.get k).val
  | .a3s => arityExec
  | .a3r => arityExec

/-- The required operand count of an instruction's mnemonic (R53). -/
def Instr.arity (c : Config) (i : Instr) : Nat := i.row.format.arity c

/-- Stage 1, normalize: commas become spaces, then leading whitespace goes (R46). -/
def normalize (c : Config) (line : Line) : Line :=
  (line.map (fun b => if b = Machine.chComma then Machine.chSpace else b)).dropWhile (Machine.isSpace c)

/-- The run of non-whitespace characters at the front, possibly empty, and the tokens after it. -/
def scanTokens (c : Config) : Line → Token × List Token
  | [] => ([], [])
  | b :: bs =>
    let (t, ts) := scanTokens c bs
    if Machine.isSpace c b then ([], if t = [] then ts else t :: ts) else (b :: t, ts)

/-- Stage 2, tokenize: the maximal runs of non-whitespace characters, in order (R48). -/
def tokens (c : Config) (l : Line) : List Token :=
  let (t, ts) := scanTokens c l
  if t = [] then ts else t :: ts

/-- The operand fields: the second, third and fourth token, an absent one empty; later tokens are
dropped unexamined (R48, D35). -/
def operandFields (ts : List Token) : Operands := ⟨ts.getD 0 [], ts.getD 1 [], ts.getD 2 []⟩

/-- The token is non-empty and begins with a comment marker (R50). -/
def startsComment (t : Token) : Bool := t.head?.any Machine.isMarker

/-- Stage 3: from the first operand that begins with a comment marker on, all are cleared (R50). -/
def stripComment (o : Operands) : Operands :=
  if startsComment o.op1 then ⟨[], [], []⟩
  else if startsComment o.op2 then ⟨o.op1, [], []⟩
  else if startsComment o.op3 then ⟨o.op1, o.op2, []⟩
  else o

/-- What stages 1 to 5 make of a line (R45). -/
inductive Decoded where
  /-- A blank or comment-only line: no instruction, no error (R47, R49). -/
  | empty
  /-- The mnemonic is not in the table (R64). -/
  | illegal (e : DecodeError)
  /-- The instruction the mnemonic selects, with its operand tokens. -/
  | instr (i : Instr)
  deriving DecidableEq, Repr

/-- Stages 1 to 5 (R45 to R52, R81). Total on any characters; what is no instruction is rejected by
name. -/
def decode (c : Config) (line : Line) : Decoded :=
  match normalize c line with
  | [] => .empty
  | b :: bs =>
    if Machine.isMarker b then .empty
    else
      match tokens c (b :: bs) with
      | [] => .empty
      | mn :: ts =>
        match lookup mn with
        | none => .illegal (.unknownInstruction mn)
        | some r => .instr (r.build (stripComment (operandFields ts)))

/-- An operand field as the encoder writes it: a space and the token; nothing for an absent one. -/
def encodeField (t : Token) : Line := if t = [] then [] else Machine.chSpace :: t

/-- The line of an instruction: the mnemonic, then the operand tokens, each after a space (R43). -/
def encode (i : Instr) : Line :=
  i.mnemonic ++ (encodeField i.operands.op1 ++ (encodeField i.operands.op2 ++ encodeField i.operands.op3))

/-- The low `n` characters of a number, the most significant first. -/
def charsOf : Nat → Nat → List Byte
  | 0, _ => []
  | n + 1, w => charsOf n (w / 256) ++ [BitVec.ofNat 8 w]

/-- The line that a number of spec/opcode_table.json stands for: "the mnemonic token's characters
written as one hexadecimal number, first character most significant" (R52). The table gives operand
tokens no bits, so there are none. Log entry 23. -/
def tableLine (nbits w : Nat) : Line := (charsOf (nbits / 8) w).dropWhile (fun b => decide (b = 0))

/-- What the decoder reads from a table row's characters, under the default parameters. -/
def decodeTableWord (nbits w : Nat) : Option Instr :=
  match decode Machine.defaultConfig (tableLine nbits w) with
  | .instr i => some i
  | .empty => none
  | .illegal _ => none

end Sys2Proof
end

