-- ==== Sys2Proof/Machine/State.lean ====
section
/-! DEFINITION. Machine/State.lean: the architectural state (10_state.md), the model's own fields
beside it, the reasons a step can stop, and the state after reset. -/

namespace Sys2Proof.Machine

/-- The Register File: 32 slots of 32 bits, slot 0 first (R10, R11). -/
abbrev RegFile := Vector Word nReg

/-- The state. `rf` is the whole architectural state (R10, R20 to R26); the other three fields are the
model's own: the argument of the model and the two directions of port EXEC (R6). -/
structure State where
  /-- The parameters of this CORE, fixed before reset, written by no step and no part of the spec's
  state (R7, R9, D36). Carried here because exec and step take nothing else. Log entry 1. -/
  cfg : Config
  /-- The Register File (R10). Slot 0 stores a word that no read returns (R14). -/
  rf : RegFile
  /-- The lines the collaborator has still to present, the next one first (R6, R31, R94). Log entry 2. -/
  input : List Line
  /-- What port EXEC carried out last; no step reads it, and `none` before the first transaction
  (R6, R80; no latched error, R26). Log entry 3. -/
  execOut : Option Result
  deriving DecidableEq, Repr

/-- The machine has no fault: "errors are local, line-scoped, non-fatal" (R26, R180), so an error is a
next state (`raise`), and no rule stops the CORE (R80, R94). No constructor, so nothing raises one.
Log entry 5. -/
inductive Fault where
  deriving DecidableEq, Repr

/-- Why a step gives no meaning. -/
inductive Refusal where
  /-- An instruction with no meaning yet, by its mnemonic. Raised by `exec` only; no arm does. Safe. -/
  | notModelled (mnemonic : String)
  /-- A line longer than a bounded LINE_MAX, with its length: "a bounded model refuses (gives no
  meaning to) longer lines rather than truncating them" (U7, D3). Raised by `execute`; never under
  the default, which is unbounded. Safe. Log entry 9. -/
  | lineTooLong (length : Nat)
  deriving DecidableEq, Repr

/-- The outcome of one step of this machine. -/
abbrev Answer := Host.Outcome State Fault Refusal

/-- Reset is construction (R210): "all 32 slots created at interpreter construction with value 0"
(R27), no line presented yet (R212), under the default parameters (R7). -/
def State.reset : State where
  cfg := defaultConfig
  rf := Vector.replicate nReg 0
  input := []
  execOut := none

end Sys2Proof.Machine
end

