-- ==== Sys2Proof/Machine/Ops.lean ====
section
/-! DEFINITION. Machine/Ops.lean: the Register File operations (10_state.md section 2), the end of a
transaction, and taking an exception (60_exceptions.md section 3). There is no memory, so there is no
operation over one (20_memory.md R30). -/

namespace Sys2Proof.Machine

/-- The word `x[i]` as a total function: 0 for slot 0 whatever is stored, the stored word for 1 to 31
(R14), and 0 where there is no slot; the checked reads below report that case. -/
def slotWord (rf : RegFile) (i : Nat) : Word :=
  if h : 0 < i ∧ i < nReg then rf[i] else 0

/-- The register file after `x[i] <- v`: unchanged for slot 0 (R13, R16) and where there is no slot. -/
def setSlot (rf : RegFile) (i : Nat) (v : Word) : RegFile :=
  if 0 < i then rf.setIfInBounds i v else rf

/-- RF `read(index)` (R14): the word whose signed view the source speaks of; `OutOfRange` above 31
(R17). -/
def rfRead (rf : RegFile) (i : Nat) : Except DecodeError Word :=
  if i < nReg then .ok (slotWord rf i) else .error (.outOfRange i)

/-- RF `read_unsigned(index)` (R15): "same as `read` but reinterprets the 32-bit pattern as
unsigned". -/
def rfReadUnsigned (rf : RegFile) (i : Nat) : Except DecodeError Nat :=
  if i < nReg then .ok (slotWord rf i).toNat else .error (.outOfRange i)

/-- RF `write(index, value)` (R16): discarded for index 0, `OutOfRange` above 31 (R17). -/
def rfWrite (rf : RegFile) (i : Nat) (v : Word) : Except DecodeError RegFile :=
  if i < nReg then .ok (setSlot rf i v) else .error (.outOfRange i)

/-- `x[i]` of a state (R69). -/
def State.x (s : State) (i : Nat) : Word := slotWord s.rf i

/-- The state with `r` carried out on port EXEC and nothing else changed. -/
def State.report (s : State) (r : Result) : State := { s with execOut := some r }

/-- The state after a successful EXEC instruction: `x[rd] <- v`, then `Ok` (R81, R87). -/
def State.retire (s : State) (rd : Nat) (v : Word) : State :=
  { s with rf := setSlot s.rf rd v, execOut := some .ok }

/-- TAKING AN EXCEPTION (R190): processing of the line stops, no slot is written, and
`Err(kind, info)` goes out on port EXEC. "Nothing else happens: no state is saved anywhere", no mode
changes and control goes nowhere. THE RETURN from it is no operation (R192): nothing was saved, so
nothing is restored, and the CORE is ready for the next line. -/
def raise (e : DecodeError) (s : State) : Answer := .next (s.report (.err e))

/-- The end of a transaction whose stages gave a register file or an error: stage 8 (R45, R80). -/
def conclude (s : State) (r : Except DecodeError RegFile) : Answer :=
  match r with
  | .ok rf => .next { s with rf := rf, execOut := some .ok }
  | .error e => raise e s

/-- The numeric code of an error on a hardware status output (R181, D21; "the numbers bind nothing"). -/
def DecodeError.code (e : DecodeError) : Nat :=
  match e with
  | .unknownInstruction _ => 1
  | .arityError _ => 2
  | .emptyOperand _ => 3
  | .malformedRegisterName _ => 4
  | .immediateOutOfRange _ => 5
  | .outOfRange _ => 6

/-- The numeric code of an outcome, 0 for `Ok` (R181). -/
def Result.code (r : Result) : Nat :=
  match r with
  | .ok => 0
  | .err e => DecodeError.code e

/-- The collaborator presents one more line, after those it has presented already (R94, R217). -/
def State.present (s : State) (line : Line) : State := { s with input := s.input ++ [line] }

/-- The state with the presented lines replaced. -/
def State.withInput (s : State) (lines : List Line) : State := { s with input := lines }

end Sys2Proof.Machine
end

