-- ==== Sys2Proof/Machine/Operands.lean ====
section
/-! DEFINITION. Machine/Operands.lean: stages 6 and 7 of the decode up to the result: the operand count
(R54), register names (R57, R58), immediate literals (R61, R62), the second source (R59, R60, R63),
and the templates of the two classes (R83, R84). -/

namespace Sys2Proof.Machine

/-- Stage 6, validate arity: passes exactly when there is no gap and the count is the mnemonic's;
otherwise `ArityError` naming the mnemonic (R54). Before any operand is resolved (D6). -/
def validateArity (c : Config) (i : Instr) : Except DecodeError Unit :=
  if i.operands.gap || i.operands.count ≠ i.arity c then .error (.arityError i.mnemonic) else .ok ()

/-- The number of a register suffix: one digit, or two of which the first is not `0` unless
REG_LEADING_ZERO_OK is set (R57, D9). -/
def regNumeral (c : Config) (t : Token) : Option Nat :=
  match t with
  | [d] => if isDigit d then some (digitVal d) else none
  | [d, e] =>
    if isDigit d && isDigit e && (c.regLeadingZeroOk || d ≠ chZero) then
      some (10 * digitVal d + digitVal e)
    else none
  | _ => none

/-- The slot of a prefix letter and a number in its range (R57, closed form of R58). -/
def prefixedSlot (p : Byte) (n : Nat) : Option Nat :=
  if p = 0x78 then (if n ≤ 31 then some n else none)                                         -- x0 to x31
  else if p = 0x74 then (if n ≤ 2 then some (5 + n) else if n ≤ 6 then some (25 + n) else none)   -- t0 to t6
  else if p = 0x73 then (if n ≤ 1 then some (8 + n) else if n ≤ 11 then some (16 + n) else none)  -- s0 to s11
  else if p = 0x61 then (if n ≤ 7 then some (10 + n) else none)                                -- a0 to a7
  else none

/-- The six names without a number: `zero`, `ra`, `sp`, `gp`, `tp`, `fp` (R57, R58). -/
def wordNames : List (Token × Nat) :=
  [([0x7A, 0x65, 0x72, 0x6F], 0), ([0x72, 0x61], 1), ([0x73, 0x70], 2), ([0x67, 0x70], 3),
   ([0x74, 0x70], 4), ([0x66, 0x70], 8)]

/-- The slot a token names, if it names one (R57). -/
def slotOfName (c : Config) (t : Token) : Option Nat :=
  match wordNames.lookup t with
  | some n => some n
  | none =>
    match t with
    | [] => none
    | p :: ds => (regNumeral c ds).bind (prefixedSlot p)

/-- Register-name resolution `reg(t)` of the operand at a position (R57, R184): `EmptyOperand` for the
empty token, `MalformedRegisterName` for every other rejected token. -/
def reg (c : Config) (position : Nat) (t : Token) : Except DecodeError Nat :=
  if t = [] then .error (.emptyOperand position)
  else
    match slotOfName c (if c.regCaseSensitive then t else t.map lowerCase) with
    | some n => .ok n
    | none => .error (.malformedRegisterName t)

/-- The number a string of digits denotes. -/
def digitsVal (ds : Token) : Nat := ds.foldl (fun n d => 10 * n + digitVal d) 0

/-- A canonical decimal numeral: the single character `0`, or a digit `1` to `9` and further digits
(R61). -/
def canonicalNumeral (t : Token) : Option Nat :=
  match t with
  | [] => none
  | d :: ds =>
    if (d :: ds).all isDigit && (d ≠ chZero || ds = []) then some (digitsVal (d :: ds)) else none

/-- The integer a literal denotes, if it matches the grammar of R61; `-0` only if IMM_NEG_ZERO_OK is
set (D11). -/
def literalValue (c : Config) (t : Token) : Option Int :=
  match t with
  | [] => none
  | b :: ds =>
    if b = chMinus then
      match canonicalNumeral ds with
      | some n => if n = 0 && !c.immNegZeroOk then none else some (-(n : Int))
      | none => none
    else
      match canonicalNumeral (b :: ds) with
      | some n => some (n : Int)
      | none => none

/-- Immediate-literal evaluation `immval(t)`: in range or `ImmediateOutOfRange` (R61, R62). -/
def immval (c : Config) (t : Token) : Except DecodeError Int :=
  match literalValue c t with
  | some n => if immMin ≤ n ∧ n ≤ immMax then .ok n else .error (.immediateOutOfRange t)
  | none => .error (.immediateOutOfRange t)

/-- The operand-shape rule: the token begins with a digit or a minus sign (R59). -/
def startsImmediate (t : Token) : Bool := t.head?.any (fun b => isDigit b || b = chMinus)

/-- Widening for every handler but SLTU: `w32(imm)` (R63). -/
def widenSigned (imm : Int) : Word := w32 imm

/-- Widening for SLTU: `zext_32(w16(imm))`, the width being SLTU_IMM_WIDTH (R63, R168). -/
def widenSltu (c : Config) (imm : Int) : Word := (BitVec.ofInt c.sltuImmWidth imm).setWidth 32

/-- The second source of an A3S instruction: an immediate widened, or a register read (R59, R63). -/
def secondSource (s : State) (widen : Int → Word) (t : Token) : Except DecodeError Word :=
  if startsImmediate t then do
    let imm ← immval s.cfg t
    return widen imm
  else do
    let rs2 ← reg s.cfg 3 t
    rfRead s.rf rs2

/-- `operands(op1, op2, op3)` of R145: the destination index and the two source words, resolved in the
order op1, op2, op3 (R84, R86). -/
def operandsA3S (s : State) (widen : Int → Word) (o : Operands) : Except DecodeError (Nat × Word × Word) := do
  let rd ← reg s.cfg 1 o.op1
  let rs1 ← reg s.cfg 2 o.op2
  let b ← secondSource s widen o.op3
  let a ← rfRead s.rf rs1
  return (rd, a, b)

/-- `operands3r(op1, op2, op3)` of R178: op3 is a register whatever its first character (R60). -/
def operandsA3R (s : State) (o : Operands) : Except DecodeError (Nat × Word × Word) := do
  let rd ← reg s.cfg 1 o.op1
  let rs1 ← reg s.cfg 2 o.op2
  let rs2 ← reg s.cfg 3 o.op3
  let a ← rfRead s.rf rs1
  let b ← rfRead s.rf rs2
  return (rd, a, b)

/-- The NOOP handler: "validate arity, no-op" (R83). No operand is resolved. -/
def noopHandler (i : Instr) (s : State) : Answer :=
  conclude s (do
    validateArity s.cfg i
    return s.rf)

/-- The EXEC template of format A3S with widening `widen` and handler function `f` (R81, R84). All
resolves and reads come before the write (R85). -/
def execA3S (i : Instr) (widen : Int → Word) (f : Word → Word → Word) (s : State) : Answer :=
  conclude s (do
    validateArity s.cfg i
    let (rd, a, b) ← operandsA3S s widen i.operands
    rfWrite s.rf rd (f a b))

/-- The EXEC template of format A3R with handler function `f` (R81, R84, R178). -/
def execA3R (i : Instr) (f : Word → Word → Word) (s : State) : Answer :=
  conclude s (do
    validateArity s.cfg i
    let (rd, a, b) ← operandsA3R s i.operands
    rfWrite s.rf rd (f a b))

end Sys2Proof.Machine
end

