-- ==== Sys2Proof/Machine/ArithLogic.lean ====
section
/-! DEFINITION. Machine/ArithLogic.lean: the 20 arithmetic, logic, shift and compare mnemonics, ten
handlers (44_arith_logic.md R145 to R169). "Which second source" is the operand-shape rule's (R59), so
the two mnemonics of a pair differ only in the name an ArityError carries (R89). -/

namespace Sys2Proof.Machine

/-- Handler ADD: `w32(u(a) + u(b))` (R150). -/
def fAdd (a b : Word) : Word := w32 (uval a + uval b)

/-- Handler SUB: `w32(u(a) - u(b))` (R152). -/
def fSub (a b : Word) : Word := w32 (uval a - uval b)

/-- Handler XOR, bit by bit (R154). -/
def fXor (a b : Word) : Word := a ^^^ b

/-- Handler OR, bit by bit (R156). -/
def fOr (a b : Word) : Word := a ||| b

/-- Handler AND, bit by bit (R158). -/
def fAnd (a b : Word) : Word := a &&& b

/-- The shift amount: the bits of the second source under SHAMT_MASK, by default the low 5 (R147). -/
def shiftAmount (c : Config) (b : Word) : Nat := (b &&& c.shamtMask).toNat

/-- Handler SLL: `w32(u(a) * 2^shamt)` (R160). -/
def fSll (c : Config) (a b : Word) : Word := w32 (uval a * 2 ^ shiftAmount c b)

/-- Handler SRL: `w32(floor(u(a) / 2^shamt))` (R162). -/
def fSrl (c : Config) (a b : Word) : Word := w32 (Int.fdiv (uval a) (2 ^ shiftAmount c b))

/-- Handler SRA: `w32(floor(s(a) / 2^shamt))` (R164). -/
def fSra (c : Config) (a b : Word) : Word := w32 (Int.fdiv (sval a) (2 ^ shiftAmount c b))

/-- Handler SLT: 1 if `s(a) < s(b)`, else 0 (R166). -/
def fSlt (a b : Word) : Word := compareWord (sval a < sval b)

/-- Handler SLTU: 1 if `u(a) < u(b)`, else 0 (R168). -/
def fSltu (a b : Word) : Word := compareWord (uval a < uval b)

/-- `add` (R150). -/
def execAdd (o : Operands) (s : State) : Answer := execA3S (.add o) widenSigned fAdd s

/-- `addi` (R151). -/
def execAddi (o : Operands) (s : State) : Answer := execA3S (.addi o) widenSigned fAdd s

/-- `sub` (R152). -/
def execSub (o : Operands) (s : State) : Answer := execA3S (.sub o) widenSigned fSub s

/-- `subi` (R153). -/
def execSubi (o : Operands) (s : State) : Answer := execA3S (.subi o) widenSigned fSub s

/-- `xor` (R154). -/
def execXor (o : Operands) (s : State) : Answer := execA3S (.xor o) widenSigned fXor s

/-- `xori` (R155). -/
def execXori (o : Operands) (s : State) : Answer := execA3S (.xori o) widenSigned fXor s

/-- `or` (R156). -/
def execOr (o : Operands) (s : State) : Answer := execA3S (.or o) widenSigned fOr s

/-- `ori` (R157). -/
def execOri (o : Operands) (s : State) : Answer := execA3S (.ori o) widenSigned fOr s

/-- `and` (R158). -/
def execAnd (o : Operands) (s : State) : Answer := execA3S (.and o) widenSigned fAnd s

/-- `andi` (R159). -/
def execAndi (o : Operands) (s : State) : Answer := execA3S (.andi o) widenSigned fAnd s

/-- `sll` (R160). -/
def execSll (o : Operands) (s : State) : Answer := execA3S (.sll o) widenSigned (fSll s.cfg) s

/-- `slli` (R161). -/
def execSlli (o : Operands) (s : State) : Answer := execA3S (.slli o) widenSigned (fSll s.cfg) s

/-- `srl` (R162). -/
def execSrl (o : Operands) (s : State) : Answer := execA3S (.srl o) widenSigned (fSrl s.cfg) s

/-- `srli` (R163). -/
def execSrli (o : Operands) (s : State) : Answer := execA3S (.srli o) widenSigned (fSrl s.cfg) s

/-- `sra` (R164). -/
def execSra (o : Operands) (s : State) : Answer := execA3S (.sra o) widenSigned (fSra s.cfg) s

/-- `srai` (R165). -/
def execSrai (o : Operands) (s : State) : Answer := execA3S (.srai o) widenSigned (fSra s.cfg) s

/-- `slt` (R166). -/
def execSlt (o : Operands) (s : State) : Answer := execA3S (.slt o) widenSigned fSlt s

/-- `slti` (R167). -/
def execSlti (o : Operands) (s : State) : Answer := execA3S (.slti o) widenSigned fSlt s

/-- `sltu` (R168). -/
def execSltu (o : Operands) (s : State) : Answer := execA3S (.sltu o) (widenSltu s.cfg) fSltu s

/-- `sltiu` (R169). -/
def execSltiu (o : Operands) (s : State) : Answer := execA3S (.sltiu o) (widenSltu s.cfg) fSltu s

end Sys2Proof.Machine
end

