-- ==== Sys2Proof/Machine/Control.lean ====
section
/-! DEFINITION. Machine/Control.lean: the 20 control-transfer, system and no-operation
mnemonics (41_control_transfer.md R100 to R119). Each is the NOOP
handler (R83): the operand count is checked, and nothing else happens. -/

namespace Sys2Proof.Machine

/-- `ret` (R100): "`ra` is not consulted, control is not transferred". -/
def execRet (o : Operands) (s : State) : Answer := noopHandler (.ret o) s

/-- `nop` (R101): a table entry of its own, not rewritten to `addi`. -/
def execNop (o : Operands) (s : State) : Answer := noopHandler (.nop o) s

/-- `ecall` (R102): no trap is taken and the collaborator is not signalled. -/
def execEcall (o : Operands) (s : State) : Answer := noopHandler (.ecall o) s

/-- `ebreak` (R103): no trap is taken, no debug state exists. -/
def execEbreak (o : Operands) (s : State) : Answer := noopHandler (.ebreak o) s

/-- `j` (R104): no target is computed. -/
def execJ (o : Operands) (s : State) : Answer := noopHandler (.j o) s

/-- `call` (R105): `ra` is not written. -/
def execCall (o : Operands) (s : State) : Answer := noopHandler (.call o) s

/-- `tail` (R106): no register is written. -/
def execTail (o : Operands) (s : State) : Answer := noopHandler (.tail o) s

/-- `jal` (R107): no link value is written. -/
def execJal (o : Operands) (s : State) : Answer := noopHandler (.jal o) s

/-- `jr` (R108): the register is not read. -/
def execJr (o : Operands) (s : State) : Answer := noopHandler (.jr o) s

/-- `jalr` (R109): no register is read or written. -/
def execJalr (o : Operands) (s : State) : Answer := noopHandler (.jalr o) s

/-- `beq` (R110): no register is read, no comparison is made. -/
def execBeq (o : Operands) (s : State) : Answer := noopHandler (.beq o) s

/-- `bne` (R111): no register is read, no comparison is made. -/
def execBne (o : Operands) (s : State) : Answer := noopHandler (.bne o) s

/-- `blt` (R112): no register is read, no comparison is made. -/
def execBlt (o : Operands) (s : State) : Answer := noopHandler (.blt o) s

/-- `bge` (R113): no register is read, no comparison is made. -/
def execBge (o : Operands) (s : State) : Answer := noopHandler (.bge o) s

/-- `bltu` (R114): no register is read, no comparison is made. -/
def execBltu (o : Operands) (s : State) : Answer := noopHandler (.bltu o) s

/-- `bgeu` (R115): no register is read, no comparison is made. -/
def execBgeu (o : Operands) (s : State) : Answer := noopHandler (.bgeu o) s

/-- `bgt` (R116): no register is read, no comparison is made. -/
def execBgt (o : Operands) (s : State) : Answer := noopHandler (.bgt o) s

/-- `ble` (R117): no register is read, no comparison is made. -/
def execBle (o : Operands) (s : State) : Answer := noopHandler (.ble o) s

/-- `bgtu` (R118): no register is read, no comparison is made. -/
def execBgtu (o : Operands) (s : State) : Answer := noopHandler (.bgtu o) s

/-- `bleu` (R119): no register is read, no comparison is made. -/
def execBleu (o : Operands) (s : State) : Answer := noopHandler (.bleu o) s

end Sys2Proof.Machine
end

