-- ==== Sys2Proof/Machine/Memory.lean ====
section
/-! DEFINITION. Machine/Memory.lean: the 8 load and store mnemonics (42_memory_access.md R120 to
R127). There is no memory (R30). Each is the NOOP
handler (R83): the operand count is checked, and nothing else happens. -/

namespace Sys2Proof.Machine

/-- `lb` (R120): no address is computed, nothing is read or written. -/
def execLb (o : Operands) (s : State) : Answer := noopHandler (.lb o) s

/-- `lh` (R121): no address is computed, nothing is read or written. -/
def execLh (o : Operands) (s : State) : Answer := noopHandler (.lh o) s

/-- `lw` (R122): no address is computed, nothing is read or written. -/
def execLw (o : Operands) (s : State) : Answer := noopHandler (.lw o) s

/-- `lbu` (R123): no address is computed, nothing is read or written. -/
def execLbu (o : Operands) (s : State) : Answer := noopHandler (.lbu o) s

/-- `lhu` (R124): no address is computed, nothing is read or written. -/
def execLhu (o : Operands) (s : State) : Answer := noopHandler (.lhu o) s

/-- `sb` (R125): no address is computed, nothing is read or written. -/
def execSb (o : Operands) (s : State) : Answer := noopHandler (.sb o) s

/-- `sh` (R126): no address is computed, nothing is read or written. -/
def execSh (o : Operands) (s : State) : Answer := noopHandler (.sh o) s

/-- `sw` (R127): no address is computed, nothing is read or written. -/
def execSw (o : Operands) (s : State) : Answer := noopHandler (.sw o) s

end Sys2Proof.Machine
end

