-- ==== Sys2Proof/Machine/MulDiv.lean ====
section
/-! DEFINITION. Machine/MulDiv.lean: the 8 multiply and divide mnemonics (45_muldiv.md R170 to R179).
Three registers, no immediate form (R60, R178). Division never raises (R179). -/

namespace Sys2Proof.Machine

/-- Handler MUL: `w32(s(a) * s(b))` (R170). -/
def fMul (a b : Word) : Word := w32 (sval a * sval b)

/-- Handler MULH: `w32(floor(s(a) * s(b) / 2^32))` (R171). -/
def fMulh (a b : Word) : Word := w32 (Int.fdiv (sval a * sval b) (2 ^ 32))

/-- Handler MULSU: `w32(floor(s(a) * u(b) / 2^32))`, rs1 the signed factor (R172, D20). -/
def fMulsu (a b : Word) : Word := w32 (Int.fdiv (sval a * uval b) (2 ^ 32))

/-- Handler MULU: `w32(u(a) * u(b))`, the LOW word (R173). -/
def fMulu (a b : Word) : Word := w32 (uval a * uval b)

/-- The quotient of two integers in the rounding of DIV_ROUNDING, by default `trunc(p / q)` (R174,
D18). -/
def quotient (c : Config) (p q : Int) : Int :=
  match c.divRounding with
  | .towardZero => Int.tdiv p q
  | .towardMinusInfinity => Int.fdiv p q

/-- The one overflow case of signed division, -2^31 by -1 (R174, R176, D19). -/
def divOverflows (a b : Word) : Bool := a = 0x80000000 && b = 0xFFFFFFFF

/-- Handler DIV: 0xFFFFFFFF for a zero divisor; DIV_OVERFLOW's quotient, by default
`w32(2^31)` = 0x80000000, for the overflow case; else `w32(trunc(s(a) / s(b)))` (R174). -/
def fDiv (c : Config) (a b : Word) : Word :=
  if b = 0 then 0xFFFFFFFF
  else if divOverflows a b then c.divOverflowQuot
  else w32 (quotient c (sval a) (sval b))

/-- Handler DIVU: 0xFFFFFFFF for a zero divisor, else `w32(floor(u(a) / u(b)))` (R175). -/
def fDivu (a b : Word) : Word :=
  if b = 0 then 0xFFFFFFFF else w32 (Int.fdiv (uval a) (uval b))

/-- Handler REM: the dividend for a zero divisor; DIV_OVERFLOW's remainder, by default 0, for the
overflow case; else `w32(s(a) - s(b) * trunc(s(a) / s(b)))` (R176). -/
def fRem (c : Config) (a b : Word) : Word :=
  if b = 0 then a
  else if divOverflows a b then c.divOverflowRem
  else w32 (sval a - sval b * quotient c (sval a) (sval b))

/-- Handler REMU: the dividend for a zero divisor, else `w32(u(a) mod u(b))` with
`u(a) mod u(b) = u(a) - u(b) * floor(u(a) / u(b))` (R177). -/
def fRemu (a b : Word) : Word :=
  if b = 0 then a else w32 (uval a - uval b * Int.fdiv (uval a) (uval b))

/-- `mul` (R170). -/
def execMul (o : Operands) (s : State) : Answer := execA3R (.mul o) fMul s

/-- `mulh` (R171). -/
def execMulh (o : Operands) (s : State) : Answer := execA3R (.mulh o) fMulh s

/-- `mulsu` (R172). -/
def execMulsu (o : Operands) (s : State) : Answer := execA3R (.mulsu o) fMulsu s

/-- `mulu` (R173). -/
def execMulu (o : Operands) (s : State) : Answer := execA3R (.mulu o) fMulu s

/-- `div` (R174). -/
def execDiv (o : Operands) (s : State) : Answer := execA3R (.div o) (fDiv s.cfg) s

/-- `divu` (R175). -/
def execDivu (o : Operands) (s : State) : Answer := execA3R (.divu o) fDivu s

/-- `rem` (R176). -/
def execRem (o : Operands) (s : State) : Answer := execA3R (.rem o) (fRem s.cfg) s

/-- `remu` (R177). -/
def execRemu (o : Operands) (s : State) : Answer := execA3R (.remu o) fRemu s

end Sys2Proof.Machine
end

