-- ==== Sys2Proof/Machine/Pseudo.lean ====
section
/-! DEFINITION. Machine/Pseudo.lean: the 12 immediate, move and pseudo mnemonics
(43_immediate_move_pseudo.md R130 to R141). Each is the NOOP
handler (R83): the operand count is checked, and nothing else happens. -/

namespace Sys2Proof.Machine

/-- `li` (R130): `rd` is not written. -/
def execLi (o : Operands) (s : State) : Answer := noopHandler (.li o) s

/-- `lui` (R131): `rd` is not written. -/
def execLui (o : Operands) (s : State) : Answer := noopHandler (.lui o) s

/-- `auipc` (R132): `rd` is not written. -/
def execAuipc (o : Operands) (s : State) : Answer := noopHandler (.auipc o) s

/-- `mv` (R133): `rd` is not written. -/
def execMv (o : Operands) (s : State) : Answer := noopHandler (.mv o) s

/-- `sext.w` (R134): `rd` is not written. -/
def execSextW (o : Operands) (s : State) : Answer := noopHandler (.sextW o) s

/-- `neg` (R135): `rd` is not written. -/
def execNeg (o : Operands) (s : State) : Answer := noopHandler (.neg o) s

/-- `negw` (R136): `rd` is not written. -/
def execNegw (o : Operands) (s : State) : Answer := noopHandler (.negw o) s

/-- `seqz` (R137): `rd` is not written. -/
def execSeqz (o : Operands) (s : State) : Answer := noopHandler (.seqz o) s

/-- `snez` (R138): `rd` is not written. -/
def execSnez (o : Operands) (s : State) : Answer := noopHandler (.snez o) s

/-- `not` (R139): `rd` is not written. -/
def execNot (o : Operands) (s : State) : Answer := noopHandler (.not o) s

/-- `sltz` (R140): `rd` is not written. -/
def execSltz (o : Operands) (s : State) : Answer := noopHandler (.sltz o) s

/-- `sgtz` (R141): `rd` is not written. -/
def execSgtz (o : Operands) (s : State) : Answer := noopHandler (.sgtz o) s

end Sys2Proof.Machine
end

