-- ==== Sys2Proof/Machine/Dispatch.lean ====
section
/-! DEFINITION. Machine/Dispatch.lean: one arm per instruction (R9, R52). -/

namespace Sys2Proof.Machine

def exec (i : Instr) (s : State) : Host.Outcome State Fault Refusal :=
  match i with
  -- Control transfer (R52 indices 0 to 19), all NOOP; 41_control_transfer.md.
  | .ret o => Sys2Proof.Machine.execRet o s
  | .nop o => Sys2Proof.Machine.execNop o s
  | .ecall o => Sys2Proof.Machine.execEcall o s
  | .ebreak o => Sys2Proof.Machine.execEbreak o s
  | .j o => Sys2Proof.Machine.execJ o s
  | .call o => Sys2Proof.Machine.execCall o s
  | .tail o => Sys2Proof.Machine.execTail o s
  | .jal o => Sys2Proof.Machine.execJal o s
  | .jr o => Sys2Proof.Machine.execJr o s
  | .jalr o => Sys2Proof.Machine.execJalr o s
  | .beq o => Sys2Proof.Machine.execBeq o s
  | .bne o => Sys2Proof.Machine.execBne o s
  | .blt o => Sys2Proof.Machine.execBlt o s
  | .bge o => Sys2Proof.Machine.execBge o s
  | .bltu o => Sys2Proof.Machine.execBltu o s
  | .bgeu o => Sys2Proof.Machine.execBgeu o s
  | .bgt o => Sys2Proof.Machine.execBgt o s
  | .ble o => Sys2Proof.Machine.execBle o s
  | .bgtu o => Sys2Proof.Machine.execBgtu o s
  | .bleu o => Sys2Proof.Machine.execBleu o s
  -- Memory (indices 20 to 27), all NOOP; 42_memory_access.md.
  | .lb o => Sys2Proof.Machine.execLb o s
  | .lh o => Sys2Proof.Machine.execLh o s
  | .lw o => Sys2Proof.Machine.execLw o s
  | .lbu o => Sys2Proof.Machine.execLbu o s
  | .lhu o => Sys2Proof.Machine.execLhu o s
  | .sb o => Sys2Proof.Machine.execSb o s
  | .sh o => Sys2Proof.Machine.execSh o s
  | .sw o => Sys2Proof.Machine.execSw o s
  -- Immediate, move, pseudo (indices 28 to 39), all NOOP; 43_immediate_move_pseudo.md.
  | .li o => Sys2Proof.Machine.execLi o s
  | .lui o => Sys2Proof.Machine.execLui o s
  | .auipc o => Sys2Proof.Machine.execAuipc o s
  | .mv o => Sys2Proof.Machine.execMv o s
  | .sextW o => Sys2Proof.Machine.execSextW o s
  | .neg o => Sys2Proof.Machine.execNeg o s
  | .negw o => Sys2Proof.Machine.execNegw o s
  | .seqz o => Sys2Proof.Machine.execSeqz o s
  | .snez o => Sys2Proof.Machine.execSnez o s
  | .not o => Sys2Proof.Machine.execNot o s
  | .sltz o => Sys2Proof.Machine.execSltz o s
  | .sgtz o => Sys2Proof.Machine.execSgtz o s
  -- Arithmetic and logic (indices 40 to 59), all EXEC of format A3S; 44_arith_logic.md.
  | .add o => Sys2Proof.Machine.execAdd o s
  | .addi o => Sys2Proof.Machine.execAddi o s
  | .sub o => Sys2Proof.Machine.execSub o s
  | .subi o => Sys2Proof.Machine.execSubi o s
  | .xor o => Sys2Proof.Machine.execXor o s
  | .xori o => Sys2Proof.Machine.execXori o s
  | .or o => Sys2Proof.Machine.execOr o s
  | .ori o => Sys2Proof.Machine.execOri o s
  | .and o => Sys2Proof.Machine.execAnd o s
  | .andi o => Sys2Proof.Machine.execAndi o s
  | .sll o => Sys2Proof.Machine.execSll o s
  | .slli o => Sys2Proof.Machine.execSlli o s
  | .srl o => Sys2Proof.Machine.execSrl o s
  | .srli o => Sys2Proof.Machine.execSrli o s
  | .sra o => Sys2Proof.Machine.execSra o s
  | .srai o => Sys2Proof.Machine.execSrai o s
  | .slt o => Sys2Proof.Machine.execSlt o s
  | .slti o => Sys2Proof.Machine.execSlti o s
  | .sltu o => Sys2Proof.Machine.execSltu o s
  | .sltiu o => Sys2Proof.Machine.execSltiu o s
  -- Multiply and divide (indices 60 to 67), all EXEC of format A3R; 45_muldiv.md.
  | .mul o => Sys2Proof.Machine.execMul o s
  | .mulh o => Sys2Proof.Machine.execMulh o s
  | .mulsu o => Sys2Proof.Machine.execMulsu o s
  | .mulu o => Sys2Proof.Machine.execMulu o s
  | .div o => Sys2Proof.Machine.execDiv o s
  | .divu o => Sys2Proof.Machine.execDivu o s
  | .rem o => Sys2Proof.Machine.execRem o s
  | .remu o => Sys2Proof.Machine.execRemu o s

end Sys2Proof.Machine
end

