-- ==== Sys2Proof/Machine/Transaction.lean ====
section
/-! DEFINITION. Machine/Transaction.lean: one `execute(line)` transaction (40_execute_cycle.md R81), the
run of a sequence of lines (R94), and instances side by side (R28, R200). -/

namespace Sys2Proof.Machine

/-- LINE_MAX: a line longer than the bound, where there is one (R43, U7). -/
def tooLong (c : Config) (line : Line) : Bool :=
  match c.lineMax with
  | none => false
  | some m => decide (m < line.length)

/-- One `execute(line)` transaction (R80, R81): `Ok` for a blank or comment-only line (R47, R49, R187),
`UnknownInstruction` for an illegal one (R64), else the instruction. -/
def execute (line : Line) (s : State) : Answer :=
  if tooLong s.cfg line then .refused (.lineTooLong line.length)
  else
    match decode s.cfg line with
    | .empty => conclude s (.ok s.rf)
    | .illegal e => raise e s
    | .instr i => exec i s

/-- What the CORE does next: it takes the line presented next and runs it whole before the one after
it is considered (R5, R36). With no line presented it waits and holds its words (R35, R202, R212). -/
def nextTransaction (s : State) : Answer :=
  match s.input with
  | [] => .next s
  | line :: rest => execute line (s.withInput rest)

/-- A program: lines presented one after another, whatever the outcomes (R94). -/
def runLines : List Line → State → Answer
  | [], s => .next s
  | line :: rest, s =>
    match execute line s with
    | .next s' => runLines rest s'
    | .fault f => .fault f
    | .refused r => .refused r

/-- Several instances side by side, of which number `k` takes its next step; none where there is no
such instance or its step gives no meaning (R28, R200). Log entry 25. -/
def stepInstance (k : Nat) (ss : List State) : Option (List State) :=
  match ss[k]? with
  | none => none
  | some s =>
    match nextTransaction s with
    | .next s' => some (ss.set k s')
    | .fault _ => none
    | .refused _ => none

end Sys2Proof.Machine
end

