-- ==== Sys2Proof/Machine/Step.lean ====
section
/-! DEFINITION. Machine/Step.lean: one step of the machine, and a table row's line put where the next
step takes its line. -/

namespace Sys2Proof.Machine

/-- One step is one `execute` transaction on the line presented next (R5). -/
def step (s : State) : Host.Outcome State Fault Refusal := nextTransaction s

/-- The state with the line of a table row presented next, before any other (log entries 2 and 23). -/
def State.withFetchWord (s : State) (nbits w : Nat) : State := s.withInput (tableLine nbits w :: s.input)

end Sys2Proof.Machine
end

