-- ==== Sys2Proof/Machine/Dump.lean ====
section
/-! DEFINITION. Machine/Dump.lean: port DUMP, `dump(hexadecimal)` (10_state.md R12, R18). A pure read
of the Register File and no step (R5); its rendering is D24's. Log entries 6 and 20. -/

namespace Sys2Proof.Machine

/-- The display string of slot 8 (R12, D24). -/
def slot8Name (n : Slot8Name) : Token :=
  match n with
  | .s0SlashFp => [0x73, 0x30, 0x2F, 0x66, 0x70]
  | .s0 => [0x73, 0x30]
  | .fp => [0x66, 0x70]

/-- The display names in declaration order (R12): `zero, ra, sp, gp, tp, t0-t2, s0/fp, s1, a0-a7,
s2-s11, t3-t6`. -/
def displayNames (c : Config) : List Token :=
  [[0x7A, 0x65, 0x72, 0x6F], [0x72, 0x61], [0x73, 0x70], [0x67, 0x70], [0x74, 0x70]]
  ++ [[0x74, 0x30], [0x74, 0x31], [0x74, 0x32], slot8Name c.slot8DisplayName, [0x73, 0x31]]
  ++ [[0x61, 0x30], [0x61, 0x31], [0x61, 0x32], [0x61, 0x33], [0x61, 0x34], [0x61, 0x35], [0x61, 0x36], [0x61, 0x37]]
  ++ [[0x73, 0x32], [0x73, 0x33], [0x73, 0x34], [0x73, 0x35], [0x73, 0x36], [0x73, 0x37], [0x73, 0x38], [0x73, 0x39]]
  ++ [[0x73, 0x31, 0x30], [0x73, 0x31, 0x31], [0x74, 0x33], [0x74, 0x34], [0x74, 0x35], [0x74, 0x36]]

/-- The display name of a slot (R12); `[]` where there is no slot. -/
def displayName (c : Config) (i : Nat) : Token := (displayNames c).getD i []

/-- `dump` as (name, word) pairs, pair `i` for slot `i` (R18; "a model should expose `dump` as (name,
word) pairs", D24). -/
def dumpWords (s : State) : List (Token × Word) :=
  (List.range nReg).map (fun i => (displayName s.cfg i, s.x i))

/-- One hexadecimal digit, letters in the case of HEX_DIGIT_CASE (D24). -/
def hexDigit (k : HexCase) (d : Nat) : Byte :=
  if d < 10 then BitVec.ofNat 8 (0x30 + d)
  else
    match k with
    | .lower => BitVec.ofNat 8 (0x61 + (d - 10))
    | .upper => BitVec.ofNat 8 (0x41 + (d - 10))

/-- The low `n` hexadecimal digits of a number, most significant first. -/
def hexDigits (k : HexCase) : Nat → Nat → Token
  | 0, _ => []
  | n + 1, m => hexDigits k n (m / 16) ++ [hexDigit k (m % 16)]

/-- The canonical decimal numeral of a number, most significant digit first; `fuel` at least its
number of digits. -/
def decDigits : Nat → Nat → Token
  | 0, _ => []
  | f + 1, m => (if m < 10 then [] else decDigits f (m / 10)) ++ [BitVec.ofNat 8 (0x30 + m % 10)]

/-- The decimal numeral of an integer of at most 10 digits, with a leading `-` for a negative value
(D24). -/
def decimalText (n : Int) : Token :=
  if n < 0 then chMinus :: decDigits 10 n.natAbs else decDigits 10 n.natAbs

/-- The rendering of one word (R18): "the 8 hexadecimal digits of `u(x[i])`, most significant digit
first", or "the decimal numeral of `s(x[i])`". -/
def renderWord (c : Config) (hexadecimal : Bool) (v : Word) : Token :=
  if hexadecimal then hexDigits c.hexDigitCase 8 v.toNat else decimalText (sval v)

/-- Port DUMP: 32 (name, rendered value) pairs in declaration order (R18). -/
def dump (s : State) (hexadecimal : Bool) : List (Token × Token) :=
  (dumpWords s).map (fun p => (p.1, renderWord s.cfg hexadecimal p.2))

end Sys2Proof.Machine
end

