-- ==== Sys2Proof/Safety.lean ====
section
/-! DEFINITION. Safety.lean: what counts as a safe run, and the terms claims about the machine are stated
in. -/

namespace Sys2Proof.Machine

/-- A safe answer: a next state whose transaction ended `Ok` (R80). -/
def Succeeds (r : Answer) : Prop := ∃ t, r = .next t ∧ t.execOut = some .ok

/-- A safe run of a sequence of lines: every one of them ends `Ok` (R80, R94). -/
def SafeRun : List Line → State → Prop
  | [], _ => True
  | line :: rest, s => ∃ t, execute line s = .next t ∧ t.execOut = some .ok ∧ SafeRun rest t

/-- The operand count passes stage 6 (R54). -/
def ArityOk (c : Config) (i : Instr) : Prop := i.operands.gap = false ∧ i.operands.count = i.arity c

/-- LINE_MAX admits the line: every line under the default, which is unbounded (R43, D3, U7). -/
def Admitted (c : Config) (line : Line) : Prop := ∀ m, c.lineMax = some m → line.length ≤ m

/-- Class NOOP (R82). -/
def isNoop (i : Instr) : Bool :=
  match i.row.format with
  | .noop _ => true
  | .a3s => false
  | .a3r => false

/-- `b` is the second source that `op3` gives an A3S instruction: an immediate widened if the token
begins with a digit or a minus sign, the word of a register otherwise (R59, R63). -/
def SecondSource (s : State) (widen : Int → Word) (t : Token) (b : Word) : Prop :=
  (startsImmediate t = true ∧ ∃ imm, immval s.cfg t = .ok imm ∧ b = widen imm) ∨
  (startsImmediate t = false ∧ ∃ rs2, reg s.cfg 3 t = .ok rs2 ∧ b = s.x rs2)

/-- The operands of an A3S instruction resolve to destination `rd` and source words `a`, `b` (R145). -/
def SourcesA3S (s : State) (widen : Int → Word) (o : Operands) (rd : Nat) (a b : Word) : Prop :=
  reg s.cfg 1 o.op1 = .ok rd ∧ (∃ rs1, reg s.cfg 2 o.op2 = .ok rs1 ∧ a = s.x rs1) ∧
  SecondSource s widen o.op3 b

/-- The operands of an A3R instruction resolve to destination `rd` and source words `a`, `b` (R178). -/
def SourcesA3R (s : State) (o : Operands) (rd : Nat) (a b : Word) : Prop :=
  reg s.cfg 1 o.op1 = .ok rd ∧ (∃ rs1, reg s.cfg 2 o.op2 = .ok rs1 ∧ a = s.x rs1) ∧
  (∃ rs2, reg s.cfg 3 o.op3 = .ok rs2 ∧ b = s.x rs2)

/-- The widening an A3S mnemonic applies to its immediate (R63): SLTU's for `sltu` and `sltiu`, the
signed one for every other. -/
def widenOf (c : Config) (i : Instr) : Int → Word :=
  match i with
  | .sltu _ => widenSltu c
  | .sltiu _ => widenSltu c
  | _ => widenSigned

/-- The instruction is accepted: its count passes stage 6, and an EXEC instruction's operands resolve
(R54, R83, R84). -/
def Accepted (s : State) (i : Instr) : Prop :=
  ArityOk s.cfg i ∧
    match i.row.format with
    | .noop _ => True
    | .a3s => ∃ rd a b, SourcesA3S s (widenOf s.cfg i) i.operands rd a b
    | .a3r => ∃ rd a b, SourcesA3R s i.operands rd a b

/-- The errors a line can end in (R181 to R186): never EmptyOperand and never OutOfRange, and each of
the others with a payload of its own cause. -/
def Reportable (e : DecodeError) : Prop :=
  match e with
  | .unknownInstruction mn => mn ≠ [] ∧ ∀ r ∈ mnemonicTable, r.token ≠ mn
  | .arityError mn => ∃ r ∈ mnemonicTable, r.token = mn
  | .emptyOperand _ => False
  | .malformedRegisterName t => t ≠ []
  | .immediateOutOfRange t => startsImmediate t = true
  | .outOfRange _ => False

/-- The invariant: slot 0 stores zero (R13, R27), port EXEC carries no error a line cannot end in (R17,
R184), and the parameters keep the character classes apart (R44). -/
def Inv (s : State) : Prop :=
  s.rf[0] = 0 ∧ (∀ e, s.execOut = some (.err e) → Reportable e) ∧ s.cfg.wf = true

/-- A character that separates tokens: a comma or whitespace (R44). -/
def isSeparator (c : Config) (b : Byte) : Bool := !isTokenChar c b

/-- The number a string of hexadecimal digits denotes, either letter case. -/
def hexValue (t : Token) : Nat :=
  t.foldl (fun n d => 16 * n +
    (if d.toNat < 0x40 then d.toNat - 0x30 else if d.toNat < 0x60 then d.toNat - 0x37 else d.toNat - 0x57)) 0

/-- The 32 numeric register names with their slots (R58). -/
def numericNames : List (Token × Nat) := [
  ([0x78, 0x30], 0), ([0x78, 0x31], 1), ([0x78, 0x32], 2), ([0x78, 0x33], 3), ([0x78, 0x34], 4),
  ([0x78, 0x35], 5), ([0x78, 0x36], 6), ([0x78, 0x37], 7), ([0x78, 0x38], 8), ([0x78, 0x39], 9),
  ([0x78, 0x31, 0x30], 10), ([0x78, 0x31, 0x31], 11), ([0x78, 0x31, 0x32], 12),
  ([0x78, 0x31, 0x33], 13), ([0x78, 0x31, 0x34], 14), ([0x78, 0x31, 0x35], 15),
  ([0x78, 0x31, 0x36], 16), ([0x78, 0x31, 0x37], 17), ([0x78, 0x31, 0x38], 18),
  ([0x78, 0x31, 0x39], 19), ([0x78, 0x32, 0x30], 20), ([0x78, 0x32, 0x31], 21),
  ([0x78, 0x32, 0x32], 22), ([0x78, 0x32, 0x33], 23), ([0x78, 0x32, 0x34], 24),
  ([0x78, 0x32, 0x35], 25), ([0x78, 0x32, 0x36], 26), ([0x78, 0x32, 0x37], 27),
  ([0x78, 0x32, 0x38], 28), ([0x78, 0x32, 0x39], 29), ([0x78, 0x33, 0x30], 30),
  ([0x78, 0x33, 0x31], 31)]

/-- The 33 symbolic register names with their slots (R58). -/
def abiNames : List (Token × Nat) := [
  ([0x7A, 0x65, 0x72, 0x6F], 0), ([0x72, 0x61], 1), ([0x73, 0x70], 2), ([0x67, 0x70], 3),
  ([0x74, 0x70], 4), ([0x74, 0x30], 5), ([0x74, 0x31], 6), ([0x74, 0x32], 7), ([0x73, 0x30], 8),
  ([0x66, 0x70], 8), ([0x73, 0x31], 9), ([0x61, 0x30], 10), ([0x61, 0x31], 11), ([0x61, 0x32], 12),
  ([0x61, 0x33], 13), ([0x61, 0x34], 14), ([0x61, 0x35], 15), ([0x61, 0x36], 16),
  ([0x61, 0x37], 17), ([0x73, 0x32], 18), ([0x73, 0x33], 19), ([0x73, 0x34], 20),
  ([0x73, 0x35], 21), ([0x73, 0x36], 22), ([0x73, 0x37], 23), ([0x73, 0x38], 24),
  ([0x73, 0x39], 25), ([0x73, 0x31, 0x30], 26), ([0x73, 0x31, 0x31], 27), ([0x74, 0x33], 28),
  ([0x74, 0x34], 29), ([0x74, 0x35], 30), ([0x74, 0x36], 31)]

/-- The 65 accepted register names with their slots, as the table of R58 lists them. -/
def registerNames : List (Token × Nat) := numericNames ++ abiNames

end Sys2Proof.Machine
end

