-- ==== Sys2Proof/Certificates/Slice0/Obligations.lean ====
section
/-! DEFINITION. Certificates/Slice0/Obligations.lean: the statements for the provers. A statement about
every state holds for every value of the parameters, since a State carries them (log entry 1); where one
rests on a default or on a decision D<n> of the spec, its docstring says so. -/

open Sys2Proof Sys2Proof.Machine

/-! ### Reset and the Register File -/

/-- R27: after reset every slot holds 0x00000000, and a read of any slot returns 0 and is no error. -/
def Obligations.ResetLeavesAllSlotsZero : Prop :=
  State.reset.rf = Vector.replicate 32 0 ∧
  ∀ i, i < 32 → rfRead State.reset.rf i = .ok 0 ∧ rfReadUnsigned State.reset.rf i = .ok 0

/-- R14, R15, R16: `read` returns 0 for index 0 regardless of stored content and the stored word for 1 to
31; `read_unsigned` is the same pattern read unsigned; a write to slot 0 is discarded; a write to a slot
1 to 31 is read back and changes no other slot; and each fails with OutOfRange above 31. -/
def Obligations.RegisterFileReadsAndWrites : Prop :=
  ∀ (rf : RegFile) (i : Nat) (v : Word),
    (i = 0 → rfRead rf i = .ok 0 ∧ rfReadUnsigned rf i = .ok 0 ∧ rfWrite rf i v = .ok rf) ∧
    (∀ (_ : 0 < i) (h : i < 32),
      rfRead rf i = .ok rf[i] ∧ rfReadUnsigned rf i = .ok rf[i].toNat ∧
      ∃ rf', rfWrite rf i v = .ok rf' ∧ rfRead rf' i = .ok v ∧
        ∀ j, j ≠ i → rfRead rf' j = rfRead rf j) ∧
    (31 < i → rfRead rf i = .error (.outOfRange i) ∧ rfReadUnsigned rf i = .error (.outOfRange i) ∧
      rfWrite rf i v = .error (.outOfRange i))

/-- R13, R87: for all 28 EXEC mnemonics, an instruction whose destination is slot 0 and whose operands
resolve succeeds and changes no slot; in every state slot 0 reads 0. -/
def Obligations.SlotZeroDestinationIsDiscarded : Prop :=
  (∀ s : State, rfRead s.rf 0 = .ok 0) ∧
  (∀ mk ∈ ([.add, .addi, .sub, .subi, .xor, .xori, .or, .ori, .and, .andi, .sll, .slli, .srl, .srli, .sra,
      .srai, .slt, .slti] : List (Operands → Instr)),
    ∀ (s : State) (o : Operands) (a b : Word), SourcesA3S s widenSigned o 0 a b →
      exec (mk o) s = .next (s.report .ok)) ∧
  (∀ mk ∈ ([.sltu, .sltiu] : List (Operands → Instr)),
    ∀ (s : State) (o : Operands) (a b : Word), SourcesA3S s (widenSltu s.cfg) o 0 a b →
      exec (mk o) s = .next (s.report .ok)) ∧
  (∀ mk ∈ ([.mul, .mulh, .mulsu, .mulu, .div, .divu, .rem, .remu] : List (Operands → Instr)),
    ∀ (s : State) (o : Operands) (a b : Word), SourcesA3R s o 0 a b →
      exec (mk o) s = .next (s.report .ok))

/-! ### The line and the mnemonic table -/

/-- R43, R46 to R52: for every instruction a line can stand for, and every choice of the parameters that
keeps the character classes apart, decoding its line gives it back. -/
def Obligations.DecodeEncodeRoundTrip : Prop :=
  ∀ (c : Config) (i : Instr), c.wf = true → i.wf c = true → decode c (encode i) = .instr i

/-- R44, R50, R51: whatever the line, the instruction decoded from it has no gap and only operand tokens
of token characters that begin with no comment marker. -/
def Obligations.DecodedInstructionIsWellFormed : Prop :=
  ∀ (c : Config) (line : Line) (i : Instr), decode c line = .instr i → i.wf c = true

/-- R44, R46, R48: commas and whitespace are the same to the decoder: exchanging any separator for any
other leaves what a line decodes to. -/
def Obligations.SeparatorsAreInterchangeable : Prop :=
  ∀ (c : Config) (g : Byte → Byte) (line : Line), c.wf = true →
    (∀ b, isSeparator c b = true → isSeparator c (g b) = true) →
    (∀ b, isSeparator c b = false → g b = b) →
    decode c (line.map g) = decode c line

/-- R50: a comment after an instruction changes nothing, whichever marker begins it and whatever follows;
nor does it on a blank line (R47). -/
def Obligations.TrailingCommentIsIgnored : Prop :=
  ∀ (c : Config) (line rest : Line) (sep marker : Byte), c.wf = true →
    isSeparator c sep = true → isMarker marker = true →
    decode c (line ++ sep :: marker :: rest) = decode c line

/-- R48 (D35, the spec's decision that they are ignored completely; log entry 26): what stands after the
fourth token changes nothing, whatever separators lead the line and stand in its three gaps. -/
def Obligations.TokensAfterTheFourthAreIgnored : Prop :=
  ∀ (c : Config) (t1 t2 t3 t4 : Token) (lead sep1 sep2 sep3 rest : Line) (b : Byte), c.wf = true →
    (∀ t ∈ [t1, t2, t3, t4], t ≠ [] ∧ ∀ x ∈ t, isTokenChar c x = true) →
    (∀ sep ∈ [sep1, sep2, sep3], sep ≠ []) →
    (∀ sep ∈ [lead, sep1, sep2, sep3], ∀ x ∈ sep, isSeparator c x = true) → isSeparator c b = true →
    decode c (lead ++ t1 ++ sep1 ++ t2 ++ sep2 ++ t3 ++ sep3 ++ t4 ++ b :: rest) =
      decode c (lead ++ t1 ++ sep1 ++ t2 ++ sep2 ++ t3 ++ sep3 ++ t4)

/-- R47, R49: a line of separators only, and one whose first other character is a comment marker, is no
instruction and no error: its transaction ends `Ok` and changes no slot. -/
def Obligations.BlankAndCommentLinesDoNothing : Prop :=
  ∀ (s : State) (seps rest : Line) (marker : Byte), s.cfg.wf = true →
    Admitted s.cfg (seps ++ marker :: rest) →
    (∀ b ∈ seps, isSeparator s.cfg b = true) → isMarker marker = true →
    execute seps s = .next (s.report .ok) ∧
    execute (seps ++ marker :: rest) s = .next (s.report .ok)

/-- R52 (the enumeration of 68, C1): the table has 68 entries, no two with the same token; each
instruction's row stands at its index, is the one its mnemonic token selects, and builds it. -/
def Obligations.MnemonicTableIsUnambiguous : Prop :=
  mnemonicTable.length = 68 ∧ (mnemonicTable.map Row.token).Nodup ∧
  (∀ i : Instr, mnemonicTable[i.index.val]? = some i.row ∧ lookup i.mnemonic = some i.row ∧
    i.row.build i.operands = i) ∧
  (∀ mn : Token, (∃ r, lookup mn = some r) ↔ mn ∈ mnemonicTable.map Row.token)

/-- R182: a transaction ends in UnknownInstruction exactly when the line's mnemonic token (its first run of
token characters) is non-empty, does not begin with a comment marker and equals no table entry; the
error records that token. -/
def Obligations.UnknownInstructionExactlyOffTheTable : Prop :=
  ∀ (s : State) (line : Line) (mn : Token), Admitted s.cfg line →
    (execute line s = .next (s.report (.err (.unknownInstruction mn))) ↔
      (tokens s.cfg (normalize s.cfg line)).head? = some mn ∧ mn ≠ [] ∧ startsComment mn = false ∧
        ∀ r ∈ mnemonicTable, r.token ≠ mn)

/-- R43, R52: lines written out character by character from the table's "ASCII bytes" decode to the
instruction they stand for, with its operands (`add a2, a0, a1`, `addi a0, zero, 5`, `mul a0 a1 a2`,
`lw a0, 4(sp)`, `beq a0, a1, x`, `sext.w a0, a1`, `ret`), and `ADD a0, a0, a0` to nothing. -/
def Obligations.SpelledOutLinesDecode : Prop :=
  decode defaultConfig [0x61, 0x64, 0x64, 0x20, 0x61, 0x32, 0x2C, 0x20, 0x61, 0x30, 0x2C, 0x20, 0x61, 0x31] =
    .instr (.add ⟨[0x61, 0x32], [0x61, 0x30], [0x61, 0x31]⟩) ∧
  decode defaultConfig [0x61, 0x64, 0x64, 0x69, 0x20, 0x61, 0x30, 0x2C, 0x20, 0x7A, 0x65, 0x72, 0x6F, 0x2C, 0x20, 0x35] =
    .instr (.addi ⟨[0x61, 0x30], [0x7A, 0x65, 0x72, 0x6F], [0x35]⟩) ∧
  decode defaultConfig [0x6D, 0x75, 0x6C, 0x20, 0x61, 0x30, 0x20, 0x61, 0x31, 0x20, 0x61, 0x32] =
    .instr (.mul ⟨[0x61, 0x30], [0x61, 0x31], [0x61, 0x32]⟩) ∧
  decode defaultConfig [0x6C, 0x77, 0x20, 0x61, 0x30, 0x2C, 0x20, 0x34, 0x28, 0x73, 0x70, 0x29] =
    .instr (.lw ⟨[0x61, 0x30], [0x34, 0x28, 0x73, 0x70, 0x29], []⟩) ∧
  decode defaultConfig [0x62, 0x65, 0x71, 0x20, 0x61, 0x30, 0x2C, 0x20, 0x61, 0x31, 0x2C, 0x20, 0x78] =
    .instr (.beq ⟨[0x61, 0x30], [0x61, 0x31], [0x78]⟩) ∧
  decode defaultConfig [0x73, 0x65, 0x78, 0x74, 0x2E, 0x77, 0x20, 0x61, 0x30, 0x2C, 0x20, 0x61, 0x31] =
    .instr (.sextW ⟨[0x61, 0x30], [0x61, 0x31], []⟩) ∧
  decode defaultConfig [0x72, 0x65, 0x74] = .instr (.ret ⟨[], [], []⟩) ∧
  decode defaultConfig [0x41, 0x44, 0x44, 0x20, 0x61, 0x30, 0x2C, 0x20, 0x61, 0x30, 0x2C, 0x20, 0x61, 0x30] =
    .illegal (.unknownInstruction [0x41, 0x44, 0x44])

/-! ### Operands -/

/-- R58: each of the 65 accepted names resolves to its slot, under every choice of the parameters and in
every operand position; the plausible names `x32`, `t7`, `s12`, `a8`, `pc`, `s0/fp` are rejected. -/
def Obligations.RegisterNamesResolveToTheirSlots : Prop :=
  registerNames.length = 65 ∧
  ∀ (c : Config) (position : Nat),
    (∀ p ∈ registerNames, reg c position p.1 = .ok p.2) ∧
    (∀ t ∈ ([[0x78, 0x33, 0x32], [0x74, 0x37], [0x73, 0x31, 0x32], [0x61, 0x38], [0x70, 0x63],
        [0x73, 0x30, 0x2F, 0x66, 0x70]] : List Token),
      reg c position t = .error (.malformedRegisterName t))

/-- R57 under the defaults of D8 and D9 (the spec's decisions; log entry 15): nothing but the 65 names
resolves; the empty token gives EmptyOperand, any other MalformedRegisterName (D10, log entry 19). -/
def Obligations.NothingElseIsARegisterName : Prop :=
  ∀ (c : Config) (position : Nat) (t : Token), c.regCaseSensitive = true → c.regLeadingZeroOk = false →
    (∃ n, reg c position t = .ok n ∧ (t, n) ∈ registerNames) ∨
    (t = [] ∧ reg c position t = .error (.emptyOperand position)) ∨
    (t ≠ [] ∧ (∀ n, (t, n) ∉ registerNames) ∧ reg c position t = .error (.malformedRegisterName t))

/-- R61, R62 under the default of D11 (the spec's decision; log entry 16): a token is accepted as the
immediate `n` exactly when `n` lies in -2048 to 2047 and the token is its canonical decimal spelling;
every other token fails with ImmediateOutOfRange. -/
def Obligations.ImmediatesAreCanonicalDecimals : Prop :=
  ∀ (c : Config) (t : Token), c.immNegZeroOk = false →
    (∀ n : Int, immval c t = .ok n ↔ (-2048 ≤ n ∧ n ≤ 2047 ∧ t = decimalText n)) ∧
    ((∀ n : Int, -2048 ≤ n → n ≤ 2047 → t ≠ decimalText n) → immval c t = .error (.immediateOutOfRange t))

/-- R59, the operand-shape rule: a token has immediate form exactly when its first character is a digit, 0x30
to 0x39, or a minus sign, 0x2D; then the second source is its literal widened, and otherwise the word of
the register it names. So every literal of the range has immediate form, no register name has it, and such
a token is never a register, in whatever position (R59 marks these as its consequences). -/
def Obligations.FirstCharacterDecidesTheOperandForm : Prop :=
  (∀ t : Token, startsImmediate t = true ↔
    ∃ b rest, t = b :: rest ∧ ((0x30 ≤ b.toNat ∧ b.toNat ≤ 0x39) ∨ b = 0x2D)) ∧
  (∀ (s : State) (widen : Int → Word) (t : Token), startsImmediate t = true →
    (∀ imm, immval s.cfg t = .ok imm → secondSource s widen t = .ok (widen imm)) ∧
    (∀ e, immval s.cfg t = .error e → secondSource s widen t = .error e) ∧
    (∀ position, reg s.cfg position t = .error (.malformedRegisterName t))) ∧
  (∀ (s : State) (widen : Int → Word) (t : Token), startsImmediate t = false →
    (∀ rs2, reg s.cfg 3 t = .ok rs2 → secondSource s widen t = .ok (s.x rs2)) ∧
    (∀ e, reg s.cfg 3 t = .error e → secondSource s widen t = .error e)) ∧
  (∀ n : Int, -2048 ≤ n → n ≤ 2047 → startsImmediate (decimalText n) = true) ∧
  (∀ p ∈ registerNames, startsImmediate p.1 = false)

/-- R63 under D16 and the default of D17 (the spec's decisions; log entry 11): an immediate keeps its
signed value, and for SLTU is the number `imm` or `65536 + imm`. -/
def Obligations.ImmediateWidening : Prop :=
  ∀ (c : Config) (imm : Int), c.sltuImmWidth = 16 → -2048 ≤ imm → imm ≤ 2047 →
    sval (widenSigned imm) = imm ∧
    uval (widenSltu c imm) = if 0 ≤ imm then imm else 65536 + imm

/-! ### The EXEC mnemonics: results (the whole next state, so the frame too) -/

/-- R150 to R153: on operands that resolve, in register and in immediate form, `add`/`addi` complete with
the wrapped sum in rd and `sub`/`subi` with the wrapped difference; no other slot changes, and `Ok` goes
out. A destination of slot 0 is discarded by `retire`. (An immediate is sign-extended: D16, the spec's own
choice; log entry 11.) -/
def Obligations.AddAndSubWriteTheWrappedResult : Prop :=
  ∀ (s : State) (o : Operands) (rd : Nat) (a b : Word), SourcesA3S s widenSigned o rd a b →
    exec (.add o) s = .next (s.retire rd (w32 (uval a + uval b))) ∧
    exec (.addi o) s = .next (s.retire rd (w32 (uval a + uval b))) ∧
    exec (.sub o) s = .next (s.retire rd (w32 (uval a - uval b))) ∧
    exec (.subi o) s = .next (s.retire rd (w32 (uval a - uval b)))

/-- R154 to R159: the six bitwise mnemonics complete with the bitwise result in rd. (An immediate is
sign-extended: D16, the spec's own choice; log entry 11.) -/
def Obligations.BitwiseMnemonicsWriteTheBitwiseResult : Prop :=
  ∀ (s : State) (o : Operands) (rd : Nat) (a b : Word), SourcesA3S s widenSigned o rd a b →
    exec (.xor o) s = .next (s.retire rd (a ^^^ b)) ∧ exec (.xori o) s = .next (s.retire rd (a ^^^ b)) ∧
    exec (.or o) s = .next (s.retire rd (a ||| b)) ∧ exec (.ori o) s = .next (s.retire rd (a ||| b)) ∧
    exec (.and o) s = .next (s.retire rd (a &&& b)) ∧ exec (.andi o) s = .next (s.retire rd (a &&& b))

/-- R160 to R165: the six shifts complete with the shifted word for the masked amount, left and logical right
over the unsigned view, arithmetic right over the signed. Under the default mask 0x1F (D15, the spec's
decision; log entry 10) that is the spec's value; that a shift under any other SHAMT_MASK, of 32 or more
places among them, follows the same formula is the model's own choice (DESIGN CHOICE, log entries 10 and
30). Immediates are sign-extended (D16, the spec's own choice; log entry 11). -/
def Obligations.ShiftsWriteTheShiftedResult : Prop :=
  ∀ (s : State) (o : Operands) (rd : Nat) (a b : Word), SourcesA3S s widenSigned o rd a b →
    let n := (b &&& s.cfg.shamtMask).toNat
    exec (.sll o) s = .next (s.retire rd (w32 (uval a * 2 ^ n))) ∧
    exec (.slli o) s = .next (s.retire rd (w32 (uval a * 2 ^ n))) ∧
    exec (.srl o) s = .next (s.retire rd (w32 (Int.fdiv (uval a) (2 ^ n)))) ∧
    exec (.srli o) s = .next (s.retire rd (w32 (Int.fdiv (uval a) (2 ^ n)))) ∧
    exec (.sra o) s = .next (s.retire rd (w32 (Int.fdiv (sval a) (2 ^ n)))) ∧
    exec (.srai o) s = .next (s.retire rd (w32 (Int.fdiv (sval a) (2 ^ n))))

/-- R148, with R166 to R169: the compare handlers SLT and SLTU write 0x00000001 when the comparison holds
and 0x00000000 when it does not, signed for SLT and unsigned for SLTU; they set no flag (there is
none: the next state is the old one with rd and the outcome changed). (Immediates are widened as D16 and
D17 read the source; log entry 11. What another SLTU_IMM_WIDTH than 16 means is the model's choice; log
entry 30.) -/
def Obligations.CompareHandlersWriteOneOrZero : Prop :=
  ∀ (s : State) (o : Operands) (rd : Nat) (a b : Word),
    (SourcesA3S s widenSigned o rd a b →
      exec (.slt o) s = .next (s.retire rd (if a.toInt < b.toInt then 0x00000001 else 0x00000000)) ∧
      exec (.slti o) s = .next (s.retire rd (if a.toInt < b.toInt then 0x00000001 else 0x00000000))) ∧
    (SourcesA3S s (widenSltu s.cfg) o rd a b →
      exec (.sltu o) s = .next (s.retire rd (if a.toNat < b.toNat then 0x00000001 else 0x00000000)) ∧
      exec (.sltiu o) s = .next (s.retire rd (if a.toNat < b.toNat then 0x00000001 else 0x00000000)))

/-- R170, R171, R173: on operands that resolve `mul` and `mulu` complete with the low word of the product in
rd, signed and unsigned, and `mulh` with the high word of the signed product. -/
def Obligations.MultiplicationsWriteTheirWord : Prop :=
  ∀ (s : State) (o : Operands) (rd : Nat) (a b : Word), SourcesA3R s o rd a b →
    exec (.mul o) s = .next (s.retire rd (w32 (sval a * sval b))) ∧
    exec (.mulh o) s = .next (s.retire rd (w32 (Int.fdiv (sval a * sval b) (2 ^ 32)))) ∧
    exec (.mulu o) s = .next (s.retire rd (w32 (uval a * uval b)))

/-- R172 with D20 (the spec's decision that rs1 is the signed factor; log entry 14): `mulsu` completes with
the high word of the product of a signed rs1 and an unsigned rs2. -/
def Obligations.MulsuWritesTheHighWord : Prop :=
  ∀ (s : State) (o : Operands) (rd : Nat) (a b : Word), SourcesA3R s o rd a b →
    exec (.mulsu o) s = .next (s.retire rd (w32 (Int.fdiv (sval a * uval b) (2 ^ 32))))

/-- R175, R177: the unsigned divisions complete on every pair of operands, with all ones or the dividend for
a zero divisor, and the quotient or remainder otherwise. -/
def Obligations.UnsignedDivisionsWriteQuotientAndRemainder : Prop :=
  ∀ (s : State) (o : Operands) (rd : Nat) (a b : Word), SourcesA3R s o rd a b →
    exec (.divu o) s = .next (s.retire rd
      (if uval b = 0 then 0xFFFFFFFF else w32 (Int.fdiv (uval a) (uval b)))) ∧
    exec (.remu o) s = .next (s.retire rd (if uval b = 0 then a else w32 (Int.fmod (uval a) (uval b))))

/-- R174, R176 under the defaults of D18 and D19 (the spec's decisions; log entries 12 and 13): the signed
divisions complete on every pair of operands, with -1 or the dividend for a zero divisor, and the wrapped
quotient or remainder, rounded toward zero, otherwise. The overflow pair needs no case of its own: its
wrapped values are the defaults of DIV_OVERFLOW. -/
def Obligations.SignedDivisionsTruncate : Prop :=
  ∀ (s : State) (o : Operands) (rd : Nat) (a b : Word), SourcesA3R s o rd a b →
    s.cfg.divRounding = .towardZero → s.cfg.divOverflowQuot = 0x80000000 → s.cfg.divOverflowRem = 0 →
    exec (.div o) s = .next (s.retire rd
      (if uval b = 0 then 0xFFFFFFFF else w32 (Int.tdiv (sval a) (sval b)))) ∧
    exec (.rem o) s = .next (s.retire rd
      (if uval b = 0 then a else w32 (sval a - sval b * Int.tdiv (sval a) (sval b))))

/-- The signed divisions complete on every pair of operands that resolve, for every DIV_ROUNDING and
DIV_OVERFLOW. The values for a zero divisor are those of R174 and R176; rounding toward zero is D18 and
the default words on the overflow pair D19, the spec's decisions (log entries 12 and 13). Rounding toward
minus infinity, the remainder that goes with it, and any other words on the overflow pair are the model's
own choice (DESIGN CHOICE, log entries 12, 13 and 30). -/
def Obligations.SignedDivisionsCompleteInEveryRounding : Prop :=
  ∀ (s : State) (o : Operands) (rd : Nat) (a b : Word), SourcesA3R s o rd a b →
    ∃ q r, exec (.div o) s = .next (s.retire rd q) ∧ exec (.rem o) s = .next (s.retire rd r) ∧
      (b = 0 → q = 0xFFFFFFFF ∧ r = a) ∧
      (a = 0x80000000 ∧ b = 0xFFFFFFFF → q = s.cfg.divOverflowQuot ∧ r = s.cfg.divOverflowRem) ∧
      (b ≠ 0 → ¬ (a = 0x80000000 ∧ b = 0xFFFFFFFF) →
        (s.cfg.divRounding = .towardZero → q = w32 (Int.tdiv (sval a) (sval b))) ∧
        (s.cfg.divRounding = .towardMinusInfinity → q = w32 (Int.fdiv (sval a) (sval b))) ∧
        r = a - b * q)

/-! ### The handler functions -/

/-- R90: for addition, subtraction, left shift and the low word of a product the result bits do not depend
on the view: the exact result modulo 2^32 is that of 32-bit machine arithmetic, read either way. (A
SHAMT_MASK other than 0x1F is the model's own choice; log entries 10 and 30.) -/
def Obligations.LowResultsDoNotDependOnTheView : Prop :=
  ∀ (c : Config) (a b : Word),
    (fAdd a b = a + b ∧ fAdd a b = w32 (sval a + sval b)) ∧
    (fSub a b = a - b ∧ fSub a b = w32 (sval a - sval b)) ∧
    (fMul a b = a * b ∧ fMulu a b = a * b) ∧
    (fSll c a b = w32 (sval a * 2 ^ (b &&& c.shamtMask).toNat))

/-- R171, and R172 with D20 (the spec's own choice that rs1 is the signed factor of `mulsu`; log entry 14): the
high-word products are bits 63 to 32 of the 64-bit two's-complement product. -/
def Obligations.HighWordsAreBits63To32 : Prop :=
  ∀ a b : Word,
    fMulh a b = (a.signExtend 64 * b.signExtend 64).extractLsb' 32 32 ∧
    fMulsu a b = (a.signExtend 64 * b.setWidth 64).extractLsb' 32 32

/-- R147 under the default of D15 (the spec's decision; log entry 10): the amount is the low 5 bits of the
second source, so the shifts are those of a 32-bit machine by 0 to 31, and an amount of 0 returns the
operand. -/
def Obligations.ShiftAmountIsTheLowFiveBits : Prop :=
  ∀ (c : Config) (a b : Word), c.shamtMask = 0x1F →
    fSll c a b = a <<< (b.toNat % 32) ∧ fSrl c a b = a >>> (b.toNat % 32) ∧
    fSra c a b = a.sshiftRight (b.toNat % 32) ∧
    (b.toNat % 32 = 0 → fSll c a b = a ∧ fSrl c a b = a ∧ fSra c a b = a)

/-- R176, R177: the quotient and remainder belong together: for a non-zero divisor the dividend is
`b * q + r` modulo 2^32, signed for any rounding away from the overflow pair and for the default values
on it (D18, D19; log entries 12 and 13), and unsigned always. (Rounding other than toward zero is the
model's own choice; log entries 12 and 30.) -/
def Obligations.DividendIsDivisorTimesQuotientPlusRemainder : Prop :=
  ∀ (c : Config) (a b : Word), b ≠ 0 →
    (¬ (a = 0x80000000 ∧ b = 0xFFFFFFFF) ∨ (c.divOverflowQuot = 0x80000000 ∧ c.divOverflowRem = 0) →
      w32 (sval b * sval (fDiv c a b) + sval (fRem c a b)) = a) ∧
    w32 (uval b * uval (fDivu a b) + uval (fRemu a b)) = a

/-- R174, R176 under the defaults of D18 and D19: the remainder is zero or has the sign of the dividend,
and is smaller in magnitude than the divisor; the quotient is not larger in magnitude than the
dividend. -/
def Obligations.RemainderHasTheSignOfTheDividend : Prop :=
  ∀ (c : Config) (a b : Word), c.divRounding = .towardZero → c.divOverflowQuot = 0x80000000 →
    c.divOverflowRem = 0 → b ≠ 0 →
    (sval (fRem c a b) = 0 ∨ (0 < sval (fRem c a b) ↔ 0 < sval a)) ∧
    (sval (fRem c a b)).natAbs < (sval b).natAbs ∧
    (sval (fDiv c a b)).natAbs ≤ (sval a).natAbs ∧
    uval (fRemu a b) < uval b

/-! ### The NOOP mnemonics -/

/-- R93 (and R83, R100 to R141), for every ARITY_NOOP: each of the 40 NOOP mnemonics (20 of control transfer,
8 of memory, 12 immediate, move and pseudo) with its required count completes on any operand tokens
whatever, and the whole state is as it was but for the `Ok` that goes out. -/
def Obligations.NoopMnemonicsSucceedAndDoNothing : Prop :=
  ∀ mk ∈ ([.ret, .nop, .ecall, .ebreak, .j, .call, .tail, .jal, .jr, .jalr, .beq, .bne, .blt, .bge, .bltu,
      .bgeu, .bgt, .ble, .bgtu, .bleu, .lb, .lh, .lw, .lbu, .lhu, .sb, .sh, .sw, .li, .lui, .auipc, .mv,
      .sextW, .neg, .negw, .seqz, .snez, .not, .sltz, .sgtz] : List (Operands → Instr)),
    ∀ (s : State) (o : Operands), o.gap = false → o.count = (mk o).arity s.cfg →
      exec (mk o) s = .next (s.report .ok)

/-- R53 under the defaults of D5 (the spec's own choice; DESIGN CHOICE, log entry 7): the required counts,
0, 1, 3 and 2 for the NOOP mnemonics and 3 for every EXEC mnemonic. -/
def Obligations.DefaultOperandCounts : Prop :=
  ∀ o : Operands,
    (∀ mk ∈ ([.ret, .nop, .ecall, .ebreak] : List (Operands → Instr)), (mk o).arity defaultConfig = 0) ∧
    (∀ mk ∈ ([.j, .call, .tail, .jal, .jr, .jalr] : List (Operands → Instr)), (mk o).arity defaultConfig = 1) ∧
    (∀ mk ∈ ([.beq, .bne, .blt, .bge, .bltu, .bgeu, .bgt, .ble, .bgtu, .bleu] : List (Operands → Instr)),
      (mk o).arity defaultConfig = 3) ∧
    (∀ mk ∈ ([.lb, .lh, .lw, .lbu, .lhu, .sb, .sh, .sw, .li, .lui, .auipc, .mv, .sextW, .neg, .negw, .seqz,
      .snez, .not, .sltz, .sgtz] : List (Operands → Instr)), (mk o).arity defaultConfig = 2) ∧
    (∀ mk ∈ ([.add, .addi, .sub, .subi, .xor, .xori, .or, .ori, .and, .andi, .sll, .slli, .srl, .srli, .sra,
      .srai, .slt, .slti, .sltu, .sltiu, .mul, .mulh, .mulsu, .mulu, .div, .divu, .rem, .remu] :
      List (Operands → Instr)), ∀ c : Config, (mk o).arity c = 3)

/-! ### Pairs, and sources that are also the destination -/

/-- R89: the two mnemonics of a pair have identical behaviour on every operand count that is theirs, in
either operand form; on a wrong count each raises ArityError under its own name (R54; log entry 19).
`mulu` behaves as `mul` (R173). -/
def Obligations.PairsShareOneHandler : Prop :=
  ∀ p ∈ ([(.add, .addi), (.sub, .subi), (.xor, .xori), (.or, .ori), (.and, .andi), (.sll, .slli),
      (.srl, .srli), (.sra, .srai), (.slt, .slti), (.sltu, .sltiu), (.mul, .mulu)] :
      List ((Operands → Instr) × (Operands → Instr))),
    ∀ (s : State) (o : Operands),
      ((o.gap = false ∧ o.count = 3) → exec (p.1 o) s = exec (p.2 o) s) ∧
      (¬ (o.gap = false ∧ o.count = 3) →
        exec (p.1 o) s = .next (s.report (.err (.arityError (p.1 o).mnemonic))) ∧
        exec (p.2 o) s = .next (s.report (.err (.arityError (p.2 o).mnemonic))))

/-- R88: sources are read before the destination is written: with one register in all three places `add`
doubles it, `sub` and `xor` clear it, and `divu` gives 1, or all ones where it held 0. (A register name never
begins with a digit or a minus sign, R59, so op3 is read as the register.) -/
def Obligations.SourcesAreReadBeforeTheWrite : Prop :=
  ∀ (s : State) (t : Token) (r : Nat), reg s.cfg 1 t = .ok r →
    exec (.add ⟨t, t, t⟩) s = .next (s.retire r (2 * s.x r)) ∧
    exec (.sub ⟨t, t, t⟩) s = .next (s.retire r 0) ∧
    exec (.xor ⟨t, t, t⟩) s = .next (s.retire r 0) ∧
    exec (.divu ⟨t, t, t⟩) s = .next (s.retire r (if s.x r = 0 then 0xFFFFFFFF else 1))

/-! ### Errors -/

/-- R183: for every one of the 68 mnemonics, a record whose count differs from the mnemonic's or that has a
gap ends in ArityError naming the mnemonic, and no other record does; a NOOP mnemonic ends in no other
error. -/
def Obligations.ArityErrorExactlyOnAWrongCount : Prop :=
  ∀ (i : Instr) (s : State),
    ((i.operands.gap = true ∨ i.operands.count ≠ i.arity s.cfg) →
      exec i s = .next (s.report (.err (.arityError i.mnemonic)))) ∧
    (∀ (t : State) (mn : Token), exec i s = .next t → t.execOut = some (.err (.arityError mn)) →
      mn = i.mnemonic ∧ (i.operands.gap = true ∨ i.operands.count ≠ i.arity s.cfg)) ∧
    (isNoop i = true → ∀ (t : State) (e : DecodeError), exec i s = .next t → t.execOut = some (.err e) →
      e = .arityError i.mnemonic)

/-- R86, R189 (D14, the spec's decision; log entry 18): once the count has passed, an EXEC instruction
reports the first operand that fails in the order op1, op2, op3, whatever the later ones are. -/
def Obligations.FirstBadOperandIsReported : Prop :=
  ∀ (i : Instr) (s : State), isNoop i = false → i.operands.gap = false → i.operands.count = 3 →
    (∀ e, reg s.cfg 1 i.operands.op1 = .error e → exec i s = .next (s.report (.err e))) ∧
    (∀ rd e, reg s.cfg 1 i.operands.op1 = .ok rd → reg s.cfg 2 i.operands.op2 = .error e →
      exec i s = .next (s.report (.err e))) ∧
    (∀ rd rs1 e, reg s.cfg 1 i.operands.op1 = .ok rd → reg s.cfg 2 i.operands.op2 = .ok rs1 →
      i.row.format = .a3s → startsImmediate i.operands.op3 = true → immval s.cfg i.operands.op3 = .error e →
      exec i s = .next (s.report (.err e))) ∧
    (∀ rd rs1 e, reg s.cfg 1 i.operands.op1 = .ok rd → reg s.cfg 2 i.operands.op2 = .ok rs1 →
      (i.row.format = .a3s → startsImmediate i.operands.op3 = false) →
      reg s.cfg 3 i.operands.op3 = .error e → exec i s = .next (s.report (.err e)))

/-- R146, R179: which errors an EXEC instruction can end in: A3R never ImmediateOutOfRange, and neither
format EmptyOperand, OutOfRange or UnknownInstruction. -/
def Obligations.ErrorsOfTheExecFormats : Prop :=
  ∀ (i : Instr) (s t : State) (e : DecodeError), isNoop i = false → exec i s = .next t →
    t.execOut = some (.err e) →
    e = .arityError i.mnemonic ∨ (∃ tok, tok ≠ [] ∧ e = .malformedRegisterName tok) ∨
    (i.row.format = .a3s ∧ startsImmediate i.operands.op3 = true ∧ e = .immediateOutOfRange i.operands.op3)

/-- R190: what an exception does. A transaction that ends in an error leaves the whole state as it was but
for the `Err` on port EXEC: no slot is written, nothing is saved, nothing else changes. -/
def Obligations.AnErrorChangesNothingElse : Prop :=
  ∀ (line : Line) (s t : State) (e : DecodeError), execute line s = .next t →
    t.execOut = some (.err e) → t = s.report (.err e)

/-! ### The transaction, the step and the run -/

/-- R80: every line gives exactly one of the two outcomes. On `Ok` at most one slot has changed, on `Err`
none; the lines still to come and the parameters are untouched. (Of a line that LINE_MAX admits: every
line under the default.) -/
def Obligations.EveryLineEndsOkOrErr : Prop :=
  ∀ (line : Line) (s : State), Admitted s.cfg line →
    ∃ t, execute line s = .next t ∧ t.cfg = s.cfg ∧ t.input = s.input ∧
      ((t.execOut = some .ok ∧ ∃ rd, ∀ j, j ≠ rd → t.x j = s.x j) ∨
       (∃ e, t.execOut = some (.err e) ∧ t.rf = s.rf))

/-- The frame of all 68 instructions (R19, R83, R87): a next state differs from the old one in the outcome
and, for an EXEC mnemonic that succeeds, in the slot op1 names; for a NOOP mnemonic in no slot. -/
def Obligations.OnlyTheDestinationSlotChanges : Prop :=
  ∀ (i : Instr) (s t : State), exec i s = .next t →
    t.cfg = s.cfg ∧ t.input = s.input ∧ (isNoop i = true → t.rf = s.rf) ∧
    (isNoop i = false → t.rf = s.rf ∨
      (t.execOut = some .ok ∧ ∃ rd, rd < 32 ∧ reg s.cfg 1 i.operands.op1 = .ok rd ∧
        ∀ j, j ≠ rd → rfRead t.rf j = rfRead s.rf j))

/-- R54, R83, R84: an instruction ends `Ok` exactly when it is accepted: its count passes, and the operands
of an EXEC mnemonic resolve. -/
def Obligations.SucceedsExactlyWhenAccepted : Prop :=
  ∀ (i : Instr) (s : State), Succeeds (exec i s) ↔ Accepted s i

/-- R5, R81: a step is exec of the instruction that the line presented next decodes to, on the state with
that line taken and nothing else changed. (A line that LINE_MAX admits; log entry 2 for the presented
lines.) -/
def Obligations.StepRunsTheDecodedInstruction : Prop :=
  ∀ (s : State) (line : Line) (rest : List Line) (i : Instr), Admitted s.cfg line →
    s.input = line :: rest → decode s.cfg line = .instr i →
    step s = exec i (s.withInput rest)

/-- R47, R49, R64, R81: a step on a line that is no instruction: `Ok` for an empty one, the error for an
illegal one, and nothing else changes but that the line is taken. (A line that LINE_MAX admits.) -/
def Obligations.StepOnALineThatIsNoInstruction : Prop :=
  ∀ (s : State) (line : Line) (rest : List Line), Admitted s.cfg line → s.input = line :: rest →
    (decode s.cfg line = .empty → step s = .next ((s.withInput rest).report .ok)) ∧
    (∀ e, decode s.cfg line = .illegal e → step s = .next ((s.withInput rest).report (.err e)))

/-- R212 and the model's log entry 2 (DESIGN CHOICE: a step with no line presented): the CORE waits and
holds its state. -/
def Obligations.StepWithoutALineHoldsTheState : Prop :=
  ∀ s : State, s.input = [] → step s = .next s

/-- U7 and the model's log entry 9 (DESIGN CHOICE): under a bounded LINE_MAX a longer line is refused, not
truncated. -/
def Obligations.LineLongerThanTheBoundIsRefused : Prop :=
  ∀ (s : State) (line : Line) (rest : List Line) (m : Nat), s.cfg.lineMax = some m →
    s.input = line :: rest → m < line.length → step s = .refused (.lineTooLong line.length)

/-- R26, R192: nothing is latched: the next step does not depend on how the previous transaction ended. -/
def Obligations.NoErrorIsLatched : Prop :=
  ∀ (s : State) (r1 r2 : Option Result), s.input ≠ [] →
    step { s with execOut := r1 } = step { s with execOut := r2 }

/-- R36: a line is run whole before the next is considered: what the collaborator presents later changes
nothing of the present step but that it is still to come. -/
def Obligations.LaterLinesDoNotReachThePresentStep : Prop :=
  ∀ (s t : State) (later : Line), s.input ≠ [] → step s = .next t →
    step (s.present later) = .next (t.present later)

/-- R94: the state after a program is the fold of the transaction over its lines: the steps of a machine
with the lines presented end in the state that running them one by one ends in. (Lines that LINE_MAX
admits; that a run ends when no line is left is D31, log entry 2.) -/
def Obligations.StepsFoldTheTransactionsOverTheLines : Prop :=
  ∀ (lines : List Line) (s : State), (∀ line ∈ lines, Admitted s.cfg line) →
    ∃ t, Host.Core.run Sys2Proof.core lines.length (s.withInput lines) = .next t ∧
      runLines lines (s.withInput []) = .next t ∧ t.input = []

/-- R26, R94: a line that fails contributes nothing: a program that begins with it ends as the program
without it does, in the same registers, and in the very same state where a line follows. -/
def Obligations.AFailedLineContributesNothing : Prop :=
  ∀ (line : Line) (rest : List Line) (s t u v : State) (e : DecodeError),
    execute line s = .next t → t.execOut = some (.err e) →
    runLines (line :: rest) s = .next u → runLines rest s = .next v →
    u.rf = v.rf ∧ u.input = v.input ∧ (rest ≠ [] → u = v)

/-- R28, R200: instances share nothing: a step of one leaves every other as it was, and is the step it would
take alone. -/
def Obligations.InstancesAreIndependent : Prop :=
  ∀ (k : Nat) (ss ts : List State), stepInstance k ss = some ts →
    ts.length = ss.length ∧ (∀ j, j ≠ k → ts[j]? = ss[j]?) ∧
    ∃ s t, ss[k]? = some s ∧ ts[k]? = some t ∧ step s = .next t

/-- The invariant of the machine (R13, R17, R44, R184): slot 0 stores zero, the outcome on port EXEC is one
a line can end in, and the parameters keep the character classes apart. Every step keeps it. -/
def Obligations.EveryStepKeepsTheInvariant : Prop :=
  ∀ s t : State, Inv s → step s = .next t → Inv t

/-- The invariant holds after reset (R27, R212; the default parameters are log entry 1's). -/
def Obligations.ResetMeetsTheInvariant : Prop := Inv State.reset

/-- No line ends in EmptyOperand or OutOfRange, from any state whatever (R17, R184, R186): a step that
changes the outcome carries out an error a line can end in, or `Ok`. -/
def Obligations.EmptyOperandAndOutOfRangeAreUnreachable : Prop :=
  ∀ (s t : State) (e : DecodeError), s.input ≠ [] → step s = .next t → t.execOut = some (.err e) →
    Reportable e

/-! ### The dump -/

/-- R18 and R12: the dump has 32 pairs, pair `i` the display name of slot `i` with `read(i)`, as a word and
rendered in either base; pair 0 always carries 0. The names are those of R12, slot 8's the one that
SLOT8_DISPLAY_NAME chooses. The hexadecimal form has 8 digits for every slot, letters in the case of
HEX_DIGIT_CASE (D24, the spec's decision; log entry 20; a dump is a function of the state, log entry 6). -/
def Obligations.DumpShowsEverySlotInOrder : Prop :=
  ∀ s : State, (dumpWords s).length = 32 ∧ (∀ hexadecimal, (dump s hexadecimal).length = 32) ∧
    (∀ i, i < 32 → ∃ v, rfRead s.rf i = .ok v ∧ (dumpWords s)[i]? = some (displayName s.cfg i, v) ∧
      ∀ hexadecimal, (dump s hexadecimal)[i]? = some (displayName s.cfg i, renderWord s.cfg hexadecimal v)) ∧
    (dumpWords s)[0]? = some ([0x7A, 0x65, 0x72, 0x6F], 0) ∧
    (∀ i, i < 32 → i ≠ 8 → (displayName s.cfg i, i) ∈ abiNames) ∧
    (s.cfg.slot8DisplayName = .s0SlashFp → displayName s.cfg 8 = [0x73, 0x30, 0x2F, 0x66, 0x70]) ∧
    (s.cfg.slot8DisplayName = .s0 → displayName s.cfg 8 = [0x73, 0x30]) ∧
    (s.cfg.slot8DisplayName = .fp → displayName s.cfg 8 = [0x66, 0x70]) ∧
    (∀ p ∈ dump s true, p.2.length = 8 ∧ ∀ b ∈ p.2, isDigit b = true ∨
      (s.cfg.hexDigitCase = .lower ∧ 0x61 ≤ b.toNat ∧ b.toNat ≤ 0x66) ∨
      (s.cfg.hexDigitCase = .upper ∧ 0x41 ≤ b.toNat ∧ b.toNat ≤ 0x46))

/-- R18 with D24 (the spec's decision; log entry 20): the two renderings of a word denote the same 32-bit
pattern: the hexadecimal digits its unsigned value, the decimal numeral its signed value. -/
def Obligations.DumpRenderingsDenoteTheSameWord : Prop :=
  ∀ (c : Config) (v : Word), hexValue (renderWord c true v) = v.toNat ∧
    literalValue c (renderWord c false v) = some v.toInt ∧
    w32 (hexValue (renderWord c true v)) = v
end

