-- ==== Sys2Proof/Laws/Decode.lean ====
section
/-! SUPPORT. Laws/Decode.lean: the tokenizer said once (its tokens, and how they join at a separator), and
the decoder as a function of the tokens alone. -/

namespace Sys2Proof

/-- A comma becomes a space (R46). -/
def commaToSpace (b : Byte) : Byte := if b = Machine.chComma then Machine.chSpace else b

/-- The tokens of a line: those of the line with its commas turned to spaces. -/
def lineTokens (c : Config) (line : Line) : List Token := tokens c (line.map commaToSpace)

theorem tokens_nil (c : Config) : tokens c [] = [] := rfl

theorem tokens_space (c : Config) {b : Byte} (l : Line) (h : Machine.isSpace c b = true) :
    tokens c (b :: l) = tokens c l := by
  simp [tokens, scanTokens, h]

/-- Whitespace splits: the tokens of both sides, in order (R48). -/
theorem tokens_append_space (c : Config) (l m : Line) {b : Byte} (h : Machine.isSpace c b = true) :
    tokens c (l ++ b :: m) = tokens c l ++ tokens c m := by
  have key : scanTokens c (l ++ b :: m) = ((scanTokens c l).1, (scanTokens c l).2 ++ tokens c m) := by
    induction l with
    | nil => simp [scanTokens, h, tokens]
    | cons a l ih =>
      simp only [List.cons_append, scanTokens, ih]
      split
      · split <;> simp
      · simp
  simp only [tokens, key]
  split <;> simp

/-- A run of non-whitespace characters is one token (R48). -/
theorem tokens_run (c : Config) (t : Token) (hne : t ≠ []) (h : ∀ b ∈ t, Machine.isSpace c b = false) :
    tokens c t = [t] := by
  have key : scanTokens c t = (t, []) := by
    clear hne
    induction t with
    | nil => rfl
    | cons a t ih =>
      have hih := ih (fun b hb => h b (List.mem_cons_of_mem _ hb))
      simp [scanTokens, hih, h a List.mem_cons_self]
  simp [tokens, key, hne]

/-- Every token is a non-empty run of non-whitespace characters of the line (R48). -/
theorem tokens_sound (c : Config) (l : Line) :
    ∀ t ∈ tokens c l, t ≠ [] ∧ ∀ b ∈ t, Machine.isSpace c b = false ∧ b ∈ l := by
  have key : (∀ b ∈ (scanTokens c l).1, Machine.isSpace c b = false ∧ b ∈ l) ∧
      ∀ t ∈ (scanTokens c l).2, t ≠ [] ∧ ∀ b ∈ t, Machine.isSpace c b = false ∧ b ∈ l := by
    induction l with
    | nil => simp [scanTokens]
    | cons a l ih =>
      obtain ⟨h1, h2⟩ := ih
      have h1' : ∀ b ∈ (scanTokens c l).1, Machine.isSpace c b = false ∧ b ∈ a :: l :=
        fun b hb => ⟨(h1 b hb).1, List.mem_cons_of_mem _ (h1 b hb).2⟩
      have h2' : ∀ t ∈ (scanTokens c l).2, t ≠ [] ∧ ∀ b ∈ t, Machine.isSpace c b = false ∧ b ∈ a :: l :=
        fun t ht => ⟨(h2 t ht).1, fun b hb => ⟨((h2 t ht).2 b hb).1, List.mem_cons_of_mem _ ((h2 t ht).2 b hb).2⟩⟩
      simp only [scanTokens]
      split
      · refine ⟨by simp, ?_⟩
        split
        · exact h2'
        · rename_i hne
          intro t ht
          rcases List.mem_cons.mp ht with rfl | ht
          · exact ⟨hne, h1'⟩
          · exact h2' t ht
      · rename_i hs
        refine ⟨?_, h2'⟩
        intro b hb
        rcases List.mem_cons.mp hb with rfl | hb
        · exact ⟨by simpa using hs, List.mem_cons_self⟩
        · exact h1' b hb
  intro t ht
  simp only [tokens] at ht
  split at ht
  · exact key.2 t ht
  · rename_i hne
    rcases List.mem_cons.mp ht with rfl | ht
    · exact ⟨hne, key.1⟩
    · exact key.2 t ht

/-- Leading whitespace does not change the tokens (R46). -/
theorem tokens_dropWhile (c : Config) (l : Line) : tokens c (l.dropWhile (Machine.isSpace c)) = tokens c l := by
  induction l with
  | nil => rfl
  | cons a l ih =>
    by_cases h : Machine.isSpace c a = true
    · rw [List.dropWhile_cons_of_pos h, ih, tokens_space c l h]
    · rw [List.dropWhile_cons_of_neg h]

theorem tokens_normalize (c : Config) (line : Line) : tokens c (normalize c line) = lineTokens c line :=
  tokens_dropWhile c _

/-- A line that begins with a non-whitespace character has a first token that begins with it. -/
theorem tokens_cons_head (c : Config) {b : Byte} (l : Line) (h : Machine.isSpace c b = false) :
    ∃ t ts, tokens c (b :: l) = (b :: t) :: ts := by
  refine ⟨(scanTokens c l).1, (scanTokens c l).2, ?_⟩
  simp [tokens, scanTokens, h]

/-- What the tokens of a line decode to (R47, R49, R52). -/
def decodeTokens (ts : List Token) : Decoded :=
  match ts with
  | [] => .empty
  | mn :: rest =>
    if startsComment mn then .empty
    else
      match lookup mn with
      | none => .illegal (.unknownInstruction mn)
      | some r => .instr (r.build (stripComment (operandFields rest)))

/-- The decoder is a function of the tokens alone. -/
theorem decode_eq_decodeTokens (c : Config) (line : Line) : decode c line = decodeTokens (lineTokens c line) := by
  unfold decode
  rw [← tokens_normalize]
  split
  · rename_i h
    simp [h, tokens_nil, decodeTokens]
  · rename_i b bs h
    have hb : Machine.isSpace c b = false := by
      have hh := List.head?_dropWhile_not (Machine.isSpace c) (line.map commaToSpace)
      have : (line.map commaToSpace).dropWhile (Machine.isSpace c) = b :: bs := h
      rw [this] at hh
      simpa using hh
    obtain ⟨t, ts, ht⟩ := tokens_cons_head c bs hb
    rw [h, ht]
    simp only [decodeTokens, startsComment, List.head?_cons, Option.any_some]
    rfl

/-- A found row is in the table and has the token that was looked up (R52). -/
theorem lookup_some {mn : Token} {r : Row} (h : lookup mn = some r) : r ∈ mnemonicTable ∧ r.token = mn := by
  refine ⟨List.mem_of_find?_eq_some h, ?_⟩
  have := List.find?_some h
  simpa using this

theorem lookup_none {mn : Token} : lookup mn = none ↔ ∀ r ∈ mnemonicTable, r.token ≠ mn := by
  simp [lookup, List.find?_eq_none]

/-- The separators are the comma and the whitespace characters (R44). -/
theorem not_isTokenChar_iff (c : Config) (b : Byte) :
    (!Machine.isTokenChar c b) = true ↔ b = Machine.chComma ∨ Machine.isSpace c b = true := by
  unfold Machine.isTokenChar Machine.charClass Machine.isSpace
  split_ifs <;> simp_all

/-- Every instruction's row of the mnemonic table is in it. -/
theorem row_mem (i : Instr) : i.row ∈ mnemonicTable := List.getElem_mem _

/-- Every row builds an instruction with the operands it is given. -/
theorem build_operands (r : Row) (hr : r ∈ mnemonicTable) (o : Operands) : (r.build o).operands = o := by
  have h : ∀ k : Fin 68, ((mnemonicTable[k.val]'(k.isLt)).build o).operands = o := by
    intro k
    fin_cases k <;> rfl
  obtain ⟨k, hk, rfl⟩ := List.getElem_of_mem hr
  exact h ⟨k, hk⟩

end Sys2Proof
end

