-- ==== Sys2Proof/Laws/State.lean ====
section
/-! SUPPORT. Laws/State.lean: one lemma per field per update of State. -/

namespace Sys2Proof.Machine

@[simp] theorem State.report_cfg (s : State) (r : Result) : (s.report r).cfg = s.cfg := rfl

@[simp] theorem State.report_rf (s : State) (r : Result) : (s.report r).rf = s.rf := rfl

@[simp] theorem State.report_input (s : State) (r : Result) : (s.report r).input = s.input := rfl

@[simp] theorem State.report_execOut (s : State) (r : Result) : (s.report r).execOut = some r := rfl

@[simp] theorem State.retire_cfg (s : State) (rd : Nat) (v : Word) : (s.retire rd v).cfg = s.cfg := rfl

@[simp] theorem State.retire_rf (s : State) (rd : Nat) (v : Word) : (s.retire rd v).rf = setSlot s.rf rd v := rfl

@[simp] theorem State.retire_input (s : State) (rd : Nat) (v : Word) : (s.retire rd v).input = s.input := rfl

@[simp] theorem State.retire_execOut (s : State) (rd : Nat) (v : Word) : (s.retire rd v).execOut = some .ok := rfl

@[simp] theorem State.present_cfg (s : State) (line : Line) : (s.present line).cfg = s.cfg := rfl

@[simp] theorem State.present_rf (s : State) (line : Line) : (s.present line).rf = s.rf := rfl

@[simp] theorem State.present_input (s : State) (line : Line) : (s.present line).input = s.input ++ [line] := rfl

@[simp] theorem State.present_execOut (s : State) (line : Line) : (s.present line).execOut = s.execOut := rfl

@[simp] theorem State.withInput_cfg (s : State) (lines : List Line) : (s.withInput lines).cfg = s.cfg := rfl

@[simp] theorem State.withInput_rf (s : State) (lines : List Line) : (s.withInput lines).rf = s.rf := rfl

@[simp] theorem State.withInput_input (s : State) (lines : List Line) : (s.withInput lines).input = lines := rfl

@[simp] theorem State.withInput_execOut (s : State) (lines : List Line) : (s.withInput lines).execOut = s.execOut := rfl

@[simp] theorem State.x_report (s : State) (r : Result) (i : Nat) : (s.report r).x i = s.x i := rfl

@[simp] theorem State.x_present (s : State) (line : Line) (i : Nat) : (s.present line).x i = s.x i := rfl

@[simp] theorem State.x_withInput (s : State) (lines : List Line) (i : Nat) : (s.withInput lines).x i = s.x i := rfl

@[simp] theorem State.x_retire (s : State) (rd : Nat) (v : Word) (i : Nat) :
    (s.retire rd v).x i = slotWord (setSlot s.rf rd v) i := rfl

/-- A state is determined by its four fields. -/
theorem State.eq_of_fields {s t : State} (hc : s.cfg = t.cfg) (hr : s.rf = t.rf) (hi : s.input = t.input)
    (ho : s.execOut = t.execOut) : s = t := by
  cases s; cases t; simp_all

@[simp] theorem State.withInput_self (s : State) : s.withInput s.input = s := rfl

@[simp] theorem State.withInput_withInput (s : State) (l m : List Line) :
    (s.withInput l).withInput m = s.withInput m := rfl

@[simp] theorem State.report_withInput (s : State) (l : List Line) (r : Result) :
    (s.withInput l).report r = (s.report r).withInput l := rfl

@[simp] theorem State.retire_withInput (s : State) (l : List Line) (rd : Nat) (v : Word) :
    (s.withInput l).retire rd v = (s.retire rd v).withInput l := rfl

@[simp] theorem State.reset_cfg : State.reset.cfg = defaultConfig := rfl

@[simp] theorem State.reset_rf : State.reset.rf = Vector.replicate nReg 0 := rfl

@[simp] theorem State.reset_input : State.reset.input = [] := rfl

@[simp] theorem State.reset_execOut : State.reset.execOut = none := rfl

end Sys2Proof.Machine
end

