-- ==== Sys2Proof/Laws/Ops.lean ====
section
/-! SUPPORT. Laws/Ops.lean: what the shared operations of Machine/Ops.lean do, said once. -/

namespace Sys2Proof.Machine

@[simp] theorem slotWord_zero (rf : RegFile) : slotWord rf 0 = 0 := by simp [slotWord]

@[simp] theorem State.x_zero (s : State) : s.x 0 = 0 := slotWord_zero s.rf

@[simp] theorem setSlot_zero (rf : RegFile) (v : Word) : setSlot rf 0 v = rf := by simp [setSlot]

/-- A write to a slot 1 to 31 is read back. -/
theorem slotWord_setSlot_same (rf : RegFile) {i : Nat} (v : Word) (h0 : 0 < i) (h : i < nReg) :
    slotWord (setSlot rf i v) i = v := by
  simp only [nReg] at h
  simp [slotWord, setSlot, h0, h]

/-- A write leaves every other slot alone. -/
theorem slotWord_setSlot_other (rf : RegFile) {i j : Nat} (v : Word) (h : j ≠ i) :
    slotWord (setSlot rf i v) j = slotWord rf j := by
  unfold slotWord setSlot
  split
  · split
    · rename_i hj _
      have := Vector.getElem_setIfInBounds_ne (xs := rf) (x := v) (i := i) (j := j) hj.2 (fun e => h e.symm)
      simpa using this
    · rfl
  · rfl

/-- What a slot reads after a write to a slot. -/
theorem slotWord_setSlot (rf : RegFile) {i : Nat} (j : Nat) (v : Word) (h : i < nReg) :
    slotWord (setSlot rf i v) j = if j = i ∧ 0 < i then v else slotWord rf j := by
  split
  · rename_i hj
    rw [hj.1]
    exact slotWord_setSlot_same rf v hj.2 h
  · rename_i hj
    by_cases hi : j = i
    · have h0 : i = 0 := by
        by_contra hne
        exact hj ⟨hi, Nat.pos_of_ne_zero hne⟩
      subst h0
      simp
    · exact slotWord_setSlot_other rf v hi

/-- A write never changes the word stored in slot 0. -/
theorem setSlot_slot0 (rf : RegFile) (i : Nat) (v : Word) : (setSlot rf i v)[0] = rf[0] := by
  unfold setSlot
  split
  · rename_i h
    exact Vector.getElem_setIfInBounds_ne (xs := rf) (x := v) (by decide) (Nat.ne_of_gt h)
  · rfl

@[simp] theorem rfRead_slot (rf : RegFile) {i : Nat} (h : i < nReg) : rfRead rf i = .ok (slotWord rf i) := by
  simp [rfRead, h]

@[simp] theorem rfWrite_slot (rf : RegFile) {i : Nat} (v : Word) (h : i < nReg) :
    rfWrite rf i v = .ok (setSlot rf i v) := by
  simp [rfWrite, h]

@[simp] theorem conclude_error (s : State) (e : DecodeError) :
    conclude s (.error e) = .next (s.report (.err e)) := rfl

@[simp] theorem conclude_same (s : State) : conclude s (.ok s.rf) = .next (s.report .ok) := rfl

@[simp] theorem conclude_setSlot (s : State) (rd : Nat) (v : Word) :
    conclude s (.ok (setSlot s.rf rd v)) = .next (s.retire rd v) := rfl

end Sys2Proof.Machine
end

