-- ==== Sys2Proof/Laws/Operands.lean ====
section
/-! SUPPORT. Laws/Operands.lean: what operand resolution and the two templates do, said once; the
meanings are instances of it. -/

namespace Sys2Proof.Machine

theorem prefixedSlot_lt {p : Byte} {n k : Nat} (h : prefixedSlot p n = some k) : k < nReg := by
  unfold prefixedSlot at h
  split_ifs at h <;> simp_all [nReg] <;> omega

theorem slotOfName_lt {c : Config} {t : Token} {n : Nat} (h : slotOfName c t = some n) : n < nReg := by
  unfold slotOfName at h
  split at h
  · rename_i m hm
    have hmem := List.lookup_eq_some_iff.mp hm
    obtain ⟨l₁, l₂, hl, -⟩ := hmem
    have hin : (t, m) ∈ wordNames := by simp [hl]
    have hall : ∀ p ∈ wordNames, p.2 < nReg := by decide
    have := hall _ hin
    simp_all
  · split at h
    · simp at h
    · rw [Option.bind_eq_some_iff] at h
      obtain ⟨k, -, hk⟩ := h
      exact prefixedSlot_lt hk

/-- Resolution yields a slot (R57, R17). -/
theorem reg_lt {c : Config} {p : Nat} {t : Token} {n : Nat} (h : reg c p t = .ok n) : n < nReg := by
  unfold reg at h
  split at h
  · simp at h
  · split at h
    · rename_i hs
      simp only [Except.ok.injEq] at h
      exact h ▸ slotOfName_lt hs
    · simp at h

/-- A token that resolves is not empty. -/
theorem reg_ne_nil {c : Config} {p : Nat} {t : Token} {n : Nat} (h : reg c p t = .ok n) : t ≠ [] := by
  rintro rfl
  simp [reg] at h

/-- The errors of register resolution (R57, R184). -/
theorem reg_error {c : Config} {p : Nat} {t : Token} {e : DecodeError} (h : reg c p t = .error e) :
    (t = [] ∧ e = .emptyOperand p) ∨ (t ≠ [] ∧ e = .malformedRegisterName t) := by
  unfold reg at h
  split at h
  · rename_i ht
    simp only [Except.error.injEq] at h
    exact .inl ⟨ht, h.symm⟩
  · rename_i ht
    split at h
    · simp at h
    · simp only [Except.error.injEq] at h
      exact .inr ⟨ht, h.symm⟩

/-- The one error of immediate evaluation (R62). -/
theorem immval_error {c : Config} {t : Token} {e : DecodeError} (h : immval c t = .error e) :
    e = .immediateOutOfRange t := by
  unfold immval at h
  split at h
  · split at h <;> simp_all
  · simp_all

theorem startsImmediate_ne_nil {t : Token} (h : startsImmediate t = true) : t ≠ [] := by
  rintro rfl
  simp [startsImmediate] at h

/-- Stage 6 passes exactly on the mnemonic's count without a gap (R54). -/
theorem validateArity_ok {c : Config} {i : Instr} (h : ArityOk c i) : validateArity c i = .ok () := by
  simp [validateArity, h.1, h.2]

theorem validateArity_error {c : Config} {i : Instr} (h : ¬ ArityOk c i) :
    validateArity c i = .error (.arityError i.mnemonic) := by
  unfold validateArity
  rw [if_pos]
  unfold ArityOk at h
  cases hg : i.operands.gap <;> simp_all

/-- Three non-empty operands have count 3 and no gap (R51). -/
theorem count_three {o : Operands} (h1 : o.op1 ≠ []) (h2 : o.op2 ≠ []) (h3 : o.op3 ≠ []) :
    o.gap = false ∧ o.count = 3 := by
  simp [Operands.gap, Operands.count, h1, h2, h3]

/-- A count of 3 without a gap has three non-empty operands (R51). -/
theorem ops_ne_nil_of_count {o : Operands} (h : o.count = 3) : o.op1 ≠ [] ∧ o.op2 ≠ [] ∧ o.op3 ≠ [] := by
  unfold Operands.count at h
  split_ifs at h <;> simp_all

theorem secondSource_ok_iff {s : State} {widen : Int → Word} {t : Token} {b : Word} :
    secondSource s widen t = .ok b ↔ SecondSource s widen t b := by
  unfold secondSource SecondSource
  cases hs : startsImmediate t
  · cases hr : reg s.cfg 3 t with
    | error e => simp [bind, Except.bind]
    | ok n => simp [bind, Except.bind, rfRead_slot _ (reg_lt hr), State.x, eq_comm]
  · cases hi : immval s.cfg t with
    | error e => simp [bind, Except.bind]
    | ok n => simp [bind, Except.bind, pure, Except.pure, eq_comm]

theorem operandsA3S_ok_iff {s : State} {widen : Int → Word} {o : Operands} {rd : Nat} {a b : Word} :
    operandsA3S s widen o = .ok (rd, a, b) ↔ SourcesA3S s widen o rd a b := by
  unfold operandsA3S SourcesA3S
  rw [← secondSource_ok_iff]
  cases h1 : reg s.cfg 1 o.op1 with
  | error e => simp [bind, Except.bind]
  | ok n1 =>
    cases h2 : reg s.cfg 2 o.op2 with
    | error e => simp [bind, Except.bind]
    | ok n2 =>
      cases h3 : secondSource s widen o.op3 with
      | error e => simp [bind, Except.bind]
      | ok b' =>
        simp [bind, Except.bind, pure, Except.pure, rfRead_slot _ (reg_lt h2), State.x, eq_comm]

theorem operandsA3R_ok_iff {s : State} {o : Operands} {rd : Nat} {a b : Word} :
    operandsA3R s o = .ok (rd, a, b) ↔ SourcesA3R s o rd a b := by
  unfold operandsA3R SourcesA3R
  cases h1 : reg s.cfg 1 o.op1 with
  | error e => simp [bind, Except.bind]
  | ok n1 =>
    cases h2 : reg s.cfg 2 o.op2 with
    | error e => simp [bind, Except.bind]
    | ok n2 =>
      cases h3 : reg s.cfg 3 o.op3 with
      | error e => simp [bind, Except.bind]
      | ok n3 =>
        simp [bind, Except.bind, pure, Except.pure, rfRead_slot _ (reg_lt h2), rfRead_slot _ (reg_lt h3),
          State.x, eq_comm]

/-- Operands that resolve have count 3 and no gap. -/
theorem SourcesA3S.count {s : State} {widen : Int → Word} {o : Operands} {rd : Nat} {a b : Word}
    (h : SourcesA3S s widen o rd a b) : o.gap = false ∧ o.count = 3 := by
  obtain ⟨h1, ⟨_, h2, -⟩, h3⟩ := h
  refine count_three (reg_ne_nil h1) (reg_ne_nil h2) ?_
  rcases h3 with ⟨h, -⟩ | ⟨-, _, h, -⟩
  · exact startsImmediate_ne_nil h
  · exact reg_ne_nil h

theorem SourcesA3R.count {s : State} {o : Operands} {rd : Nat} {a b : Word}
    (h : SourcesA3R s o rd a b) : o.gap = false ∧ o.count = 3 := by
  obtain ⟨h1, ⟨_, h2, -⟩, _, h3, -⟩ := h
  exact count_three (reg_ne_nil h1) (reg_ne_nil h2) (reg_ne_nil h3)

theorem SourcesA3S.rd_lt {s : State} {widen : Int → Word} {o : Operands} {rd : Nat} {a b : Word}
    (h : SourcesA3S s widen o rd a b) : rd < nReg := reg_lt h.1

theorem SourcesA3R.rd_lt {s : State} {o : Operands} {rd : Nat} {a b : Word}
    (h : SourcesA3R s o rd a b) : rd < nReg := reg_lt h.1

/-- The NOOP handler, said once: `Ok` and nothing else, or `ArityError` (R83). -/
theorem noopHandler_eq (i : Instr) (s : State) :
    (ArityOk s.cfg i → noopHandler i s = .next (s.report .ok)) ∧
    (¬ ArityOk s.cfg i → noopHandler i s = .next (s.report (.err (.arityError i.mnemonic)))) := by
  refine ⟨fun h => ?_, fun h => ?_⟩
  · simp [noopHandler, validateArity_ok h, bind, Except.bind, pure, Except.pure]
  · simp [noopHandler, validateArity_error h, bind, Except.bind]

/-- The A3S template on operands that resolve (R84): the instruction completes. -/
theorem execA3S_next {i : Instr} {widen : Int → Word} {f : Word → Word → Word} {s : State} {rd : Nat}
    {a b : Word} (ha : ArityOk s.cfg i) (h : SourcesA3S s widen i.operands rd a b) :
    execA3S i widen f s = .next (s.retire rd (f a b)) := by
  simp [execA3S, validateArity_ok ha, operandsA3S_ok_iff.mpr h, bind, Except.bind, rfWrite_slot _ _ h.rd_lt]

/-- The A3R template on operands that resolve (R84): the instruction completes. -/
theorem execA3R_next {i : Instr} {f : Word → Word → Word} {s : State} {rd : Nat}
    {a b : Word} (ha : ArityOk s.cfg i) (h : SourcesA3R s i.operands rd a b) :
    execA3R i f s = .next (s.retire rd (f a b)) := by
  simp [execA3R, validateArity_ok ha, operandsA3R_ok_iff.mpr h, bind, Except.bind, rfWrite_slot _ _ h.rd_lt]

/-- Everything the A3S template can do: fail the count, fail a resolve, or retire. -/
theorem execA3S_cases (i : Instr) (widen : Int → Word) (f : Word → Word → Word) (s : State) :
    (¬ ArityOk s.cfg i ∧ execA3S i widen f s = .next (s.report (.err (.arityError i.mnemonic)))) ∨
    (ArityOk s.cfg i ∧ ∃ e, operandsA3S s widen i.operands = .error e ∧
      execA3S i widen f s = .next (s.report (.err e))) ∨
    (ArityOk s.cfg i ∧ ∃ rd a b, SourcesA3S s widen i.operands rd a b ∧
      execA3S i widen f s = .next (s.retire rd (f a b))) := by
  by_cases ha : ArityOk s.cfg i
  · right
    cases h : operandsA3S s widen i.operands with
    | error e =>
      exact .inl ⟨ha, e, rfl, by simp [execA3S, validateArity_ok ha, h, bind, Except.bind]⟩
    | ok p =>
      obtain ⟨rd, a, b⟩ := p
      have hs := operandsA3S_ok_iff.mp h
      exact .inr ⟨ha, rd, a, b, hs, execA3S_next ha hs⟩
  · exact .inl ⟨ha, by simp [execA3S, validateArity_error ha, bind, Except.bind]⟩

/-- Everything the A3R template can do: fail the count, fail a resolve, or retire. -/
theorem execA3R_cases (i : Instr) (f : Word → Word → Word) (s : State) :
    (¬ ArityOk s.cfg i ∧ execA3R i f s = .next (s.report (.err (.arityError i.mnemonic)))) ∨
    (ArityOk s.cfg i ∧ ∃ e, operandsA3R s i.operands = .error e ∧
      execA3R i f s = .next (s.report (.err e))) ∨
    (ArityOk s.cfg i ∧ ∃ rd a b, SourcesA3R s i.operands rd a b ∧
      execA3R i f s = .next (s.retire rd (f a b))) := by
  by_cases ha : ArityOk s.cfg i
  · right
    cases h : operandsA3R s i.operands with
    | error e =>
      exact .inl ⟨ha, e, rfl, by simp [execA3R, validateArity_ok ha, h, bind, Except.bind]⟩
    | ok p =>
      obtain ⟨rd, a, b⟩ := p
      have hs := operandsA3R_ok_iff.mp h
      exact .inr ⟨ha, rd, a, b, hs, execA3R_next ha hs⟩
  · exact .inl ⟨ha, by simp [execA3R, validateArity_error ha, bind, Except.bind]⟩

/-- The errors of A3S operand resolution, in the order op1, op2, op3 (R86). -/
theorem operandsA3S_error {s : State} {widen : Int → Word} {o : Operands} {e : DecodeError}
    (h : operandsA3S s widen o = .error e) :
    reg s.cfg 1 o.op1 = .error e ∨
    (∃ rd, reg s.cfg 1 o.op1 = .ok rd ∧ reg s.cfg 2 o.op2 = .error e) ∨
    (∃ rd rs1, reg s.cfg 1 o.op1 = .ok rd ∧ reg s.cfg 2 o.op2 = .ok rs1 ∧
      ((startsImmediate o.op3 = true ∧ immval s.cfg o.op3 = .error e) ∨
       (startsImmediate o.op3 = false ∧ reg s.cfg 3 o.op3 = .error e))) := by
  unfold operandsA3S at h
  cases h1 : reg s.cfg 1 o.op1 with
  | error e1 => simp_all [bind, Except.bind]
  | ok n1 =>
    cases h2 : reg s.cfg 2 o.op2 with
    | error e2 => simp_all [bind, Except.bind]
    | ok n2 =>
      right; right
      refine ⟨n1, n2, rfl, rfl, ?_⟩
      unfold secondSource at h
      cases hs : startsImmediate o.op3
      · cases h3 : reg s.cfg 3 o.op3 with
        | error e3 => simp_all [bind, Except.bind]
        | ok n3 =>
          simp [h1, h2, hs, h3, bind, Except.bind, pure, Except.pure, rfRead_slot _ (reg_lt h2),
            rfRead_slot _ (reg_lt h3)] at h
      · cases hi : immval s.cfg o.op3 with
        | error e3 => simp_all [bind, Except.bind]
        | ok n3 =>
          simp [h1, h2, hs, hi, bind, Except.bind, pure, Except.pure, rfRead_slot _ (reg_lt h2)] at h

/-- The errors of A3R operand resolution, in the order op1, op2, op3 (R86). -/
theorem operandsA3R_error {s : State} {o : Operands} {e : DecodeError} (h : operandsA3R s o = .error e) :
    reg s.cfg 1 o.op1 = .error e ∨
    (∃ rd, reg s.cfg 1 o.op1 = .ok rd ∧ reg s.cfg 2 o.op2 = .error e) ∨
    (∃ rd rs1, reg s.cfg 1 o.op1 = .ok rd ∧ reg s.cfg 2 o.op2 = .ok rs1 ∧ reg s.cfg 3 o.op3 = .error e) := by
  unfold operandsA3R at h
  cases h1 : reg s.cfg 1 o.op1 with
  | error e1 => simp_all [bind, Except.bind]
  | ok n1 =>
    cases h2 : reg s.cfg 2 o.op2 with
    | error e2 => simp_all [bind, Except.bind]
    | ok n2 =>
      cases h3 : reg s.cfg 3 o.op3 with
      | error e3 => simp_all [bind, Except.bind]
      | ok n3 =>
        simp [h1, h2, h3, bind, Except.bind, pure, Except.pure, rfRead_slot _ (reg_lt h2),
          rfRead_slot _ (reg_lt h3)] at h

end Sys2Proof.Machine
end

