-- ==== Sys2Proof/Laws/PerInstr.lean ====
section
/-! SUPPORT. Laws/PerInstr.lean: the family TableRow, one lemma per constructor of Instr: its row of the
mnemonic table is the entry its mnemonic selects, and it builds the instruction from its operands. -/

namespace Sys2Proof.Laws.TableRow

/-- The row of an instruction is the one its mnemonic token looks up, and it builds the instruction. -/
def Statement (i : Instr) : Prop := lookup i.mnemonic = some i.row ∧ i.row.build i.operands = i

theorem ret (o : Operands) : Statement (.ret o) := ⟨rfl, rfl⟩

theorem nop (o : Operands) : Statement (.nop o) := ⟨rfl, rfl⟩

theorem ecall (o : Operands) : Statement (.ecall o) := ⟨rfl, rfl⟩

theorem ebreak (o : Operands) : Statement (.ebreak o) := ⟨rfl, rfl⟩

theorem j (o : Operands) : Statement (.j o) := ⟨rfl, rfl⟩

theorem call (o : Operands) : Statement (.call o) := ⟨rfl, rfl⟩

theorem tail (o : Operands) : Statement (.tail o) := ⟨rfl, rfl⟩

theorem jal (o : Operands) : Statement (.jal o) := ⟨rfl, rfl⟩

theorem jr (o : Operands) : Statement (.jr o) := ⟨rfl, rfl⟩

theorem jalr (o : Operands) : Statement (.jalr o) := ⟨rfl, rfl⟩

theorem beq (o : Operands) : Statement (.beq o) := ⟨rfl, rfl⟩

theorem bne (o : Operands) : Statement (.bne o) := ⟨rfl, rfl⟩

theorem blt (o : Operands) : Statement (.blt o) := ⟨rfl, rfl⟩

theorem bge (o : Operands) : Statement (.bge o) := ⟨rfl, rfl⟩

theorem bltu (o : Operands) : Statement (.bltu o) := ⟨rfl, rfl⟩

theorem bgeu (o : Operands) : Statement (.bgeu o) := ⟨rfl, rfl⟩

theorem bgt (o : Operands) : Statement (.bgt o) := ⟨rfl, rfl⟩

theorem ble (o : Operands) : Statement (.ble o) := ⟨rfl, rfl⟩

theorem bgtu (o : Operands) : Statement (.bgtu o) := ⟨rfl, rfl⟩

theorem bleu (o : Operands) : Statement (.bleu o) := ⟨rfl, rfl⟩

theorem lb (o : Operands) : Statement (.lb o) := ⟨rfl, rfl⟩

theorem lh (o : Operands) : Statement (.lh o) := ⟨rfl, rfl⟩

theorem lw (o : Operands) : Statement (.lw o) := ⟨rfl, rfl⟩

theorem lbu (o : Operands) : Statement (.lbu o) := ⟨rfl, rfl⟩

theorem lhu (o : Operands) : Statement (.lhu o) := ⟨rfl, rfl⟩

theorem sb (o : Operands) : Statement (.sb o) := ⟨rfl, rfl⟩

theorem sh (o : Operands) : Statement (.sh o) := ⟨rfl, rfl⟩

theorem sw (o : Operands) : Statement (.sw o) := ⟨rfl, rfl⟩

theorem li (o : Operands) : Statement (.li o) := ⟨rfl, rfl⟩

theorem lui (o : Operands) : Statement (.lui o) := ⟨rfl, rfl⟩

theorem auipc (o : Operands) : Statement (.auipc o) := ⟨rfl, rfl⟩

theorem mv (o : Operands) : Statement (.mv o) := ⟨rfl, rfl⟩

theorem sextW (o : Operands) : Statement (.sextW o) := ⟨rfl, rfl⟩

theorem neg (o : Operands) : Statement (.neg o) := ⟨rfl, rfl⟩

theorem negw (o : Operands) : Statement (.negw o) := ⟨rfl, rfl⟩

theorem seqz (o : Operands) : Statement (.seqz o) := ⟨rfl, rfl⟩

theorem snez (o : Operands) : Statement (.snez o) := ⟨rfl, rfl⟩

theorem not (o : Operands) : Statement (.not o) := ⟨rfl, rfl⟩

theorem sltz (o : Operands) : Statement (.sltz o) := ⟨rfl, rfl⟩

theorem sgtz (o : Operands) : Statement (.sgtz o) := ⟨rfl, rfl⟩

theorem add (o : Operands) : Statement (.add o) := ⟨rfl, rfl⟩

theorem addi (o : Operands) : Statement (.addi o) := ⟨rfl, rfl⟩

theorem sub (o : Operands) : Statement (.sub o) := ⟨rfl, rfl⟩

theorem subi (o : Operands) : Statement (.subi o) := ⟨rfl, rfl⟩

theorem xor (o : Operands) : Statement (.xor o) := ⟨rfl, rfl⟩

theorem xori (o : Operands) : Statement (.xori o) := ⟨rfl, rfl⟩

theorem or (o : Operands) : Statement (.or o) := ⟨rfl, rfl⟩

theorem ori (o : Operands) : Statement (.ori o) := ⟨rfl, rfl⟩

theorem and (o : Operands) : Statement (.and o) := ⟨rfl, rfl⟩

theorem andi (o : Operands) : Statement (.andi o) := ⟨rfl, rfl⟩

theorem sll (o : Operands) : Statement (.sll o) := ⟨rfl, rfl⟩

theorem slli (o : Operands) : Statement (.slli o) := ⟨rfl, rfl⟩

theorem srl (o : Operands) : Statement (.srl o) := ⟨rfl, rfl⟩

theorem srli (o : Operands) : Statement (.srli o) := ⟨rfl, rfl⟩

theorem sra (o : Operands) : Statement (.sra o) := ⟨rfl, rfl⟩

theorem srai (o : Operands) : Statement (.srai o) := ⟨rfl, rfl⟩

theorem slt (o : Operands) : Statement (.slt o) := ⟨rfl, rfl⟩

theorem slti (o : Operands) : Statement (.slti o) := ⟨rfl, rfl⟩

theorem sltu (o : Operands) : Statement (.sltu o) := ⟨rfl, rfl⟩

theorem sltiu (o : Operands) : Statement (.sltiu o) := ⟨rfl, rfl⟩

theorem mul (o : Operands) : Statement (.mul o) := ⟨rfl, rfl⟩

theorem mulh (o : Operands) : Statement (.mulh o) := ⟨rfl, rfl⟩

theorem mulsu (o : Operands) : Statement (.mulsu o) := ⟨rfl, rfl⟩

theorem mulu (o : Operands) : Statement (.mulu o) := ⟨rfl, rfl⟩

theorem div (o : Operands) : Statement (.div o) := ⟨rfl, rfl⟩

theorem divu (o : Operands) : Statement (.divu o) := ⟨rfl, rfl⟩

theorem rem (o : Operands) : Statement (.rem o) := ⟨rfl, rfl⟩

theorem remu (o : Operands) : Statement (.remu o) := ⟨rfl, rfl⟩

end Sys2Proof.Laws.TableRow
end

