-- ==== Sys2Proof/Laws/Step.lean ====
section
/-! SUPPORT. Laws/Step.lean: what an instruction, a transaction and a step can do, said once, and what none
of them depends on. -/

namespace Sys2Proof.Machine

/-- Every meaning is one of the two templates or the NOOP handler (R81 to R84). -/
theorem exec_shape (i : Instr) (s : State) :
    (isNoop i = true ∧ exec i s = noopHandler i s) ∨
    (isNoop i = false ∧ i.row.format = .a3s ∧ ∃ f, exec i s = execA3S i (widenOf s.cfg i) f s) ∨
    (isNoop i = false ∧ i.row.format = .a3r ∧ ∃ f, exec i s = execA3R i f s) := by
  cases i <;> first
    | exact .inl ⟨rfl, rfl⟩
    | exact .inr (.inl ⟨rfl, rfl, _, rfl⟩)
    | exact .inr (.inr ⟨rfl, rfl, _, rfl⟩)

/-- The count of an EXEC mnemonic is 3 (R53). -/
theorem arity_exec (i : Instr) (c : Config) (h : isNoop i = false) : i.arity c = 3 := by
  unfold isNoop at h; unfold Instr.arity
  split at h <;> simp_all [Format.arity, arityExec]

/-- Everything an instruction can do: fail the count, do nothing, fail a resolve, or retire. -/
theorem exec_cases (i : Instr) (s : State) :
    (¬ ArityOk s.cfg i ∧ exec i s = .next (s.report (.err (.arityError i.mnemonic)))) ∨
    (ArityOk s.cfg i ∧ isNoop i = true ∧ exec i s = .next (s.report .ok)) ∨
    (ArityOk s.cfg i ∧ isNoop i = false ∧ i.row.format = .a3s ∧
      ((∃ e, operandsA3S s (widenOf s.cfg i) i.operands = .error e ∧ exec i s = .next (s.report (.err e))) ∨
       (∃ rd a b v, SourcesA3S s (widenOf s.cfg i) i.operands rd a b ∧ exec i s = .next (s.retire rd v)))) ∨
    (ArityOk s.cfg i ∧ isNoop i = false ∧ i.row.format = .a3r ∧
      ((∃ e, operandsA3R s i.operands = .error e ∧ exec i s = .next (s.report (.err e))) ∨
       (∃ rd a b v, SourcesA3R s i.operands rd a b ∧ exec i s = .next (s.retire rd v)))) := by
  rcases exec_shape i s with ⟨hn, h⟩ | ⟨hn, hf, f, h⟩ | ⟨hn, hf, f, h⟩
  · by_cases ha : ArityOk s.cfg i
    · exact .inr (.inl ⟨ha, hn, h ▸ (noopHandler_eq i s).1 ha⟩)
    · exact .inl ⟨ha, h ▸ (noopHandler_eq i s).2 ha⟩
  · rw [h]
    rcases execA3S_cases i (widenOf s.cfg i) f s with ⟨ha, he⟩ | ⟨ha, e, h1, h2⟩ | ⟨ha, rd, a, b, h1, h2⟩
    · exact .inl ⟨ha, he⟩
    · exact .inr (.inr (.inl ⟨ha, hn, hf, .inl ⟨e, h1, h2⟩⟩))
    · exact .inr (.inr (.inl ⟨ha, hn, hf, .inr ⟨rd, a, b, _, h1, h2⟩⟩))
  · rw [h]
    rcases execA3R_cases i f s with ⟨ha, he⟩ | ⟨ha, e, h1, h2⟩ | ⟨ha, rd, a, b, h1, h2⟩
    · exact .inl ⟨ha, he⟩
    · exact .inr (.inr (.inr ⟨ha, hn, hf, .inl ⟨e, h1, h2⟩⟩))
    · exact .inr (.inr (.inr ⟨ha, hn, hf, .inr ⟨rd, a, b, _, h1, h2⟩⟩))

/-- Every state an instruction or a line can end in: an error goes out, `Ok` goes out, or a slot is written
and `Ok` goes out. -/
def EndsFrom (s t : State) : Prop :=
  (∃ e, t = s.report (.err e)) ∨ t = s.report .ok ∨ ∃ rd v, rd < nReg ∧ t = s.retire rd v

theorem EndsFrom.cfg {s t : State} (h : EndsFrom s t) : t.cfg = s.cfg := by
  rcases h with ⟨_, rfl⟩ | rfl | ⟨_, _, _, rfl⟩ <;> rfl

theorem EndsFrom.input {s t : State} (h : EndsFrom s t) : t.input = s.input := by
  rcases h with ⟨_, rfl⟩ | rfl | ⟨_, _, _, rfl⟩ <;> rfl

/-- Every instruction answers a next state, one of three kinds. -/
theorem exec_ends (i : Instr) (s : State) : ∃ t, exec i s = .next t ∧ EndsFrom s t := by
  rcases exec_cases i s with ⟨-, h⟩ | ⟨-, -, h⟩ | ⟨-, -, -, ⟨e, -, h⟩ | ⟨rd, a, b, v, hs, h⟩⟩ |
      ⟨-, -, -, ⟨e, -, h⟩ | ⟨rd, a, b, v, hs, h⟩⟩
  · exact ⟨_, h, .inl ⟨_, rfl⟩⟩
  · exact ⟨_, h, .inr (.inl rfl)⟩
  · exact ⟨_, h, .inl ⟨_, rfl⟩⟩
  · exact ⟨_, h, .inr (.inr ⟨rd, v, hs.rd_lt, rfl⟩)⟩
  · exact ⟨_, h, .inl ⟨_, rfl⟩⟩
  · exact ⟨_, h, .inr (.inr ⟨rd, v, hs.rd_lt, rfl⟩)⟩

/-- An admitted line is not too long. -/
theorem not_tooLong_of_admitted {c : Config} {line : Line} (h : Admitted c line) : tooLong c line = false := by
  unfold tooLong
  cases hm : c.lineMax with
  | none => rfl
  | some m =>
    have := h m hm
    simp
    omega

/-- A transaction that LINE_MAX admits, by what the line decodes to. -/
theorem execute_eq {line : Line} {s : State} (h : tooLong s.cfg line = false) :
    execute line s = match decode s.cfg line with
      | .empty => .next (s.report .ok)
      | .illegal e => .next (s.report (.err e))
      | .instr i => exec i s := by
  simp only [execute, h, Bool.false_eq_true, if_false]
  cases decode s.cfg line <;> rfl

/-- Everything a transaction can do (R80). -/
theorem execute_cases (line : Line) (s : State) :
    (tooLong s.cfg line = true ∧ execute line s = .refused (.lineTooLong line.length)) ∨
    (tooLong s.cfg line = false ∧ ∃ t, execute line s = .next t ∧ EndsFrom s t) := by
  cases h : tooLong s.cfg line
  · refine .inr ⟨rfl, ?_⟩
    rw [execute_eq h]
    cases decode s.cfg line with
    | empty => exact ⟨_, rfl, .inr (.inl rfl)⟩
    | illegal e => exact ⟨_, rfl, .inl ⟨e, rfl⟩⟩
    | instr i => exact exec_ends i s
  · exact .inl ⟨rfl, by simp [execute, h]⟩

/-- Everything a step that answers a next state can do (R5, R212). -/
theorem step_cases {s t : State} (h : step s = .next t) :
    (s.input = [] ∧ t = s) ∨
    ∃ line rest, s.input = line :: rest ∧ execute line (s.withInput rest) = .next t ∧
      EndsFrom (s.withInput rest) t := by
  unfold step nextTransaction at h
  split at h
  · rename_i hi
    simp only [Host.Outcome.next.injEq] at h
    exact .inl ⟨hi, h.symm⟩
  · rename_i line rest hi
    refine .inr ⟨line, rest, hi, h, ?_⟩
    rcases execute_cases line (s.withInput rest) with ⟨-, h'⟩ | ⟨-, u, h', hu⟩
    · rw [h'] at h; contradiction
    · rw [h'] at h
      simp only [Host.Outcome.next.injEq] at h
      exact h ▸ hu

/-- A function of the state that does not look at the outcome of the transaction before. -/
theorem conclude_execOut (s : State) (r : Option Result) (x : Except DecodeError RegFile) :
    conclude { s with execOut := r } x = conclude s x := by
  cases x <;> rfl

/-- No instruction reads the outcome of the transaction before (R26). -/
theorem exec_execOut (i : Instr) (s : State) (r : Option Result) : exec i { s with execOut := r } = exec i s := by
  cases i <;> exact conclude_execOut s r _

/-- The answer with the lines still to come replaced. -/
def answerWithInput (a : Answer) (l : List Line) : Answer :=
  match a with
  | .next t => .next (t.withInput l)
  | .fault f => .fault f
  | .refused r => .refused r

theorem conclude_withInput (s : State) (l : List Line) (x : Except DecodeError RegFile) :
    conclude (s.withInput l) x = answerWithInput (conclude s x) l := by
  cases x <;> rfl

/-- No instruction reads the lines still to come (R36). -/
theorem exec_withInput (i : Instr) (s : State) (l : List Line) :
    exec i (s.withInput l) = answerWithInput (exec i s) l := by
  cases i <;> exact conclude_withInput s l _

/-- One more step of a run. -/
theorem run_succ (M : Host.Core) (k : Nat) (s : M.State) :
    M.run (k + 1) s = match M.step s with
      | .next s' => M.run k s'
      | .fault r => .fault r
      | .refused r => .refused r := rfl

end Sys2Proof.Machine
end

