-- ==== Sys2Proof/Laws/Word.lean ====
section
/-! SUPPORT. Laws/Word.lean: truncation undoes both views and respects the ring operations (R69, R90). -/

namespace Sys2Proof

theorem w32_sval (a : Word) : w32 (sval a) = a := by simp [w32, sval]

theorem w32_uval (a : Word) : w32 (uval a) = a := by simp [w32, uval]

theorem w32_mul (x y : Int) : w32 (x * y) = w32 x * w32 y := by simp [w32, BitVec.ofInt_mul]

theorem w32_add (x y : Int) : w32 (x + y) = w32 x + w32 y := by simp [w32, BitVec.ofInt_add]

theorem w32_sub (x y : Int) : w32 (x - y) = w32 x - w32 y := by
  simp [w32, Int.sub_eq_add_neg, BitVec.ofInt_add, BitVec.ofInt_neg, BitVec.sub_eq_add_neg]

end Sys2Proof
end

