-- ==== Sys2Proof/Tests/Slice0.lean ====
section
/-! SUPPORT. Tests/Slice0.lean: the model's own tests. Expected values are the spec's: the "ASCII bytes" of
R52, the examples of the rules named. The witness_ theorems show that the hypotheses of the obligations
can be met together. -/

namespace Sys2Proof.Tests

open Sys2Proof.Machine

/-- Tokens, character by character. -/
def tA0 : Token := [0x61, 0x30]
def tA1 : Token := [0x61, 0x31]
def tA2 : Token := [0x61, 0x32]
def tZero : Token := [0x7A, 0x65, 0x72, 0x6F]
def tX32 : Token := [0x78, 0x33, 0x32]

/-- `a0, a1, a2` as operand fields. -/
def ops : Operands := ⟨tA0, tA1, tA2⟩

/-- `a0, a1` and an immediate token. -/
def opsImm (t : Token) : Operands := ⟨tA0, tA1, t⟩

/-- The reset state with words in `a1` and `a2`, and lines presented. -/
def stateWith (a1 a2 : Word) (lines : List Line) : State :=
  { State.reset with rf := setSlot (setSlot State.reset.rf 11 a1) 12 a2, input := lines }

/-- What `a0` holds after one instruction on the words `a1` and `a2`, if it ends `Ok`. -/
def a0After (i : Instr) (a1 a2 : Word) : Option Word :=
  match exec i (stateWith a1 a2 []) with
  | .next t => if t.execOut = some .ok then some (t.x 10) else none
  | .fault _ => none
  | .refused _ => none

/-- The outcome that one step gives on a line after reset. -/
def outcomeOf (line : Line) : Option Result :=
  match step (State.reset.present line) with
  | .next t => t.execOut
  | .fault _ => none
  | .refused _ => none

/-! ### Well-formedness: an ill-formed term for each check -/

theorem test_wf_accepts : Instr.wf defaultConfig (.add ops) = true := by decide

theorem test_wf_refuses_gap : Instr.wf defaultConfig (.add ⟨[], tA1, tA2⟩) = false := by decide

theorem test_wf_refuses_gap_before_op3 : Instr.wf defaultConfig (.mv ⟨tA0, [], tA2⟩) = false := by decide

/-- A comma inside op1. -/
theorem test_wf_refuses_comma : Instr.wf defaultConfig (.add ⟨[0x61, 0x2C], tA1, tA2⟩) = false := by decide

/-- A tab inside op2. -/
theorem test_wf_refuses_whitespace : Instr.wf defaultConfig (.add ⟨tA0, [0x61, 0x09], tA2⟩) = false := by decide

/-- op3 begins with `#`. -/
theorem test_wf_refuses_comment : Instr.wf defaultConfig (.add ⟨tA0, tA1, [0x23, 0x61]⟩) = false := by decide

theorem test_config_wf_default : defaultConfig.wf = true := by decide

theorem test_config_wf_needs_space : ({ defaultConfig with whitespace := [0x09] } : Config).wf = false := by decide

theorem test_config_wf_refuses_letter :
    ({ defaultConfig with whitespace := [0x20, 0x61] } : Config).wf = false := by decide

theorem test_config_wf_refuses_narrow : ({ defaultConfig with sltuImmWidth := 11 } : Config).wf = false := by
  decide

theorem test_config_wf_refuses_wide : ({ defaultConfig with sltuImmWidth := 33 } : Config).wf = false := by
  decide

/-! ### Decoding: every mnemonic's "ASCII bytes" (R52) as one number, first character most significant -/

theorem test_decode_control :
    decodeTableWord 24 0x726574 = some (.ret ⟨[], [], []⟩) ∧
    decodeTableWord 24 0x6E6F70 = some (.nop ⟨[], [], []⟩) ∧
    decodeTableWord 40 0x6563616C6C = some (.ecall ⟨[], [], []⟩) ∧
    decodeTableWord 48 0x65627265616B = some (.ebreak ⟨[], [], []⟩) ∧
    decodeTableWord 8 0x6A = some (.j ⟨[], [], []⟩) ∧
    decodeTableWord 32 0x63616C6C = some (.call ⟨[], [], []⟩) ∧
    decodeTableWord 32 0x7461696C = some (.tail ⟨[], [], []⟩) ∧
    decodeTableWord 24 0x6A616C = some (.jal ⟨[], [], []⟩) ∧
    decodeTableWord 16 0x6A72 = some (.jr ⟨[], [], []⟩) ∧
    decodeTableWord 32 0x6A616C72 = some (.jalr ⟨[], [], []⟩) ∧
    decodeTableWord 24 0x626571 = some (.beq ⟨[], [], []⟩) ∧
    decodeTableWord 24 0x626E65 = some (.bne ⟨[], [], []⟩) ∧
    decodeTableWord 24 0x626C74 = some (.blt ⟨[], [], []⟩) ∧
    decodeTableWord 24 0x626765 = some (.bge ⟨[], [], []⟩) ∧
    decodeTableWord 32 0x626C7475 = some (.bltu ⟨[], [], []⟩) ∧
    decodeTableWord 32 0x62676575 = some (.bgeu ⟨[], [], []⟩) ∧
    decodeTableWord 24 0x626774 = some (.bgt ⟨[], [], []⟩) ∧
    decodeTableWord 24 0x626C65 = some (.ble ⟨[], [], []⟩) ∧
    decodeTableWord 32 0x62677475 = some (.bgtu ⟨[], [], []⟩) ∧
    decodeTableWord 32 0x626C6575 = some (.bleu ⟨[], [], []⟩) := by
  decide

theorem test_decode_memory :
    decodeTableWord 16 0x6C62 = some (.lb ⟨[], [], []⟩) ∧
    decodeTableWord 16 0x6C68 = some (.lh ⟨[], [], []⟩) ∧
    decodeTableWord 16 0x6C77 = some (.lw ⟨[], [], []⟩) ∧
    decodeTableWord 24 0x6C6275 = some (.lbu ⟨[], [], []⟩) ∧
    decodeTableWord 24 0x6C6875 = some (.lhu ⟨[], [], []⟩) ∧
    decodeTableWord 16 0x7362 = some (.sb ⟨[], [], []⟩) ∧
    decodeTableWord 16 0x7368 = some (.sh ⟨[], [], []⟩) ∧
    decodeTableWord 16 0x7377 = some (.sw ⟨[], [], []⟩) := by
  decide

theorem test_decode_pseudo :
    decodeTableWord 16 0x6C69 = some (.li ⟨[], [], []⟩) ∧
    decodeTableWord 24 0x6C7569 = some (.lui ⟨[], [], []⟩) ∧
    decodeTableWord 40 0x6175697063 = some (.auipc ⟨[], [], []⟩) ∧
    decodeTableWord 16 0x6D76 = some (.mv ⟨[], [], []⟩) ∧
    decodeTableWord 48 0x736578742E77 = some (.sextW ⟨[], [], []⟩) ∧
    decodeTableWord 24 0x6E6567 = some (.neg ⟨[], [], []⟩) ∧
    decodeTableWord 32 0x6E656777 = some (.negw ⟨[], [], []⟩) ∧
    decodeTableWord 32 0x7365717A = some (.seqz ⟨[], [], []⟩) ∧
    decodeTableWord 32 0x736E657A = some (.snez ⟨[], [], []⟩) ∧
    decodeTableWord 24 0x6E6F74 = some (.not ⟨[], [], []⟩) ∧
    decodeTableWord 32 0x736C747A = some (.sltz ⟨[], [], []⟩) ∧
    decodeTableWord 32 0x7367747A = some (.sgtz ⟨[], [], []⟩) := by
  decide

theorem test_decode_arith :
    decodeTableWord 24 0x616464 = some (.add ⟨[], [], []⟩) ∧
    decodeTableWord 32 0x61646469 = some (.addi ⟨[], [], []⟩) ∧
    decodeTableWord 24 0x737562 = some (.sub ⟨[], [], []⟩) ∧
    decodeTableWord 32 0x73756269 = some (.subi ⟨[], [], []⟩) ∧
    decodeTableWord 24 0x786F72 = some (.xor ⟨[], [], []⟩) ∧
    decodeTableWord 32 0x786F7269 = some (.xori ⟨[], [], []⟩) ∧
    decodeTableWord 16 0x6F72 = some (.or ⟨[], [], []⟩) ∧
    decodeTableWord 24 0x6F7269 = some (.ori ⟨[], [], []⟩) ∧
    decodeTableWord 24 0x616E64 = some (.and ⟨[], [], []⟩) ∧
    decodeTableWord 32 0x616E6469 = some (.andi ⟨[], [], []⟩) ∧
    decodeTableWord 24 0x736C6C = some (.sll ⟨[], [], []⟩) ∧
    decodeTableWord 32 0x736C6C69 = some (.slli ⟨[], [], []⟩) ∧
    decodeTableWord 24 0x73726C = some (.srl ⟨[], [], []⟩) ∧
    decodeTableWord 32 0x73726C69 = some (.srli ⟨[], [], []⟩) ∧
    decodeTableWord 24 0x737261 = some (.sra ⟨[], [], []⟩) ∧
    decodeTableWord 32 0x73726169 = some (.srai ⟨[], [], []⟩) ∧
    decodeTableWord 24 0x736C74 = some (.slt ⟨[], [], []⟩) ∧
    decodeTableWord 32 0x736C7469 = some (.slti ⟨[], [], []⟩) ∧
    decodeTableWord 32 0x736C7475 = some (.sltu ⟨[], [], []⟩) ∧
    decodeTableWord 40 0x736C746975 = some (.sltiu ⟨[], [], []⟩) := by
  decide

theorem test_decode_muldiv :
    decodeTableWord 24 0x6D756C = some (.mul ⟨[], [], []⟩) ∧
    decodeTableWord 32 0x6D756C68 = some (.mulh ⟨[], [], []⟩) ∧
    decodeTableWord 40 0x6D756C7375 = some (.mulsu ⟨[], [], []⟩) ∧
    decodeTableWord 32 0x6D756C75 = some (.mulu ⟨[], [], []⟩) ∧
    decodeTableWord 24 0x646976 = some (.div ⟨[], [], []⟩) ∧
    decodeTableWord 32 0x64697675 = some (.divu ⟨[], [], []⟩) ∧
    decodeTableWord 24 0x72656D = some (.rem ⟨[], [], []⟩) ∧
    decodeTableWord 32 0x72656D75 = some (.remu ⟨[], [], []⟩) := by
  decide

/-- `beq a0, a1, x # y`: op1 to op3, and the comment is cleared (R48, R50). -/
theorem test_decode_line_control :
    decode defaultConfig [0x62, 0x65, 0x71, 0x20, 0x61, 0x30, 0x2C, 0x61, 0x31, 0x2C, 0x78, 0x20, 0x23, 0x20, 0x79] =
      .instr (.beq ⟨tA0, tA1, [0x78]⟩) := by
  decide

/-- `lw a0, 4(sp)`: parentheses do not separate (R44). -/
theorem test_decode_line_memory :
    decode defaultConfig [0x6C, 0x77, 0x20, 0x61, 0x30, 0x2C, 0x20, 0x34, 0x28, 0x73, 0x70, 0x29] =
      .instr (.lw ⟨tA0, [0x34, 0x28, 0x73, 0x70, 0x29], []⟩) := by
  decide

/-- `  sext.w a0 ,, a1`: leading and repeated separators (R46, R48). -/
theorem test_decode_line_pseudo :
    decode defaultConfig [0x20, 0x20, 0x73, 0x65, 0x78, 0x74, 0x2E, 0x77, 0x20, 0x61, 0x30, 0x20, 0x2C, 0x2C, 0x20, 0x61, 0x31] =
      .instr (.sextW ⟨tA0, tA1, []⟩) := by
  decide

/-- `add a0 a1 a2 a3`: the fifth token is dropped (R48, D35). -/
theorem test_decode_line_arith :
    decode defaultConfig [0x61, 0x64, 0x64, 0x20, 0x61, 0x30, 0x20, 0x61, 0x31, 0x20, 0x61, 0x32, 0x20, 0x61, 0x33] =
      .instr (.add ops) := by
  decide

/-- `div a0 #a1 a2`: the operands from the comment on are cleared (R50). -/
theorem test_decode_line_muldiv :
    decode defaultConfig [0x64, 0x69, 0x76, 0x20, 0x61, 0x30, 0x20, 0x23, 0x61, 0x31, 0x20, 0x61, 0x32] =
      .instr (.div ⟨tA0, [], []⟩) := by
  decide

/-- `ADD a0`: exact string equality only (R52). -/
theorem test_decode_upper_case :
    decode defaultConfig [0x41, 0x44, 0x44, 0x20, 0x61, 0x30] =
      .illegal (.unknownInstruction [0x41, 0x44, 0x44]) := by
  decide

/-- `nop;`: a marker inside a token is an ordinary character (R50). -/
theorem test_decode_attached_marker :
    decode defaultConfig [0x6E, 0x6F, 0x70, 0x3B] =
      .illegal (.unknownInstruction [0x6E, 0x6F, 0x70, 0x3B]) := by
  decide

/-- `, # x`: comment-only (R47). -/
theorem test_decode_comment_line :
    decode defaultConfig [0x2C, 0x20, 0x23, 0x20, 0x78] =
      .empty := by
  decide

/-- `,,,`: blank (R49). -/
theorem test_decode_blank_line :
    decode defaultConfig [0x2C, 0x2C, 0x2C] =
      .empty := by
  decide

/-- The encoder writes the mnemonic, then each operand after a space (R43): `add a0 a1 a2`. -/
theorem test_encode_add : encode (.add ops) =
    [0x61, 0x64, 0x64, 0x20, 0x61, 0x30, 0x20, 0x61, 0x31, 0x20, 0x61, 0x32] := by
  decide

/-! ### Results: the example of each rule R150 to R177 -/

/-- R150. -/
theorem test_add : a0After (.add ops) 5 3 = some 8 := by decide

/-- R151. -/
theorem test_addi : a0After (.addi (opsImm [0x35])) 0 0 = some 5 := by decide

/-- R152. -/
theorem test_sub : a0After (.sub ops) 3 5 = some 0xFFFFFFFE := by decide

/-- R153. -/
theorem test_subi : a0After (.subi (opsImm [0x33])) 10 0 = some 7 := by decide

/-- R154. -/
theorem test_xor : a0After (.xor ops) 0xFF00FF00 0x0F0F0F0F = some 0xF00FF00F := by decide

/-- R155. -/
theorem test_xori : a0After (.xori (opsImm [0x2D, 0x31])) 0x12345678 0 = some 0xEDCBA987 := by decide

/-- R156. -/
theorem test_or : a0After (.or ops) 0xFF00FF00 0x0F0F0F0F = some 0xFF0FFF0F := by decide

/-- R157. -/
theorem test_ori : a0After (.ori (opsImm [0x31, 0x36, 0x35, 0x36])) 0x12345000 0 = some 0x12345678 := by decide

/-- R158. -/
theorem test_and : a0After (.and ops) 0xFF00FF00 0x0F0F0F0F = some 0x0F000F00 := by decide

/-- R159. -/
theorem test_andi : a0After (.andi (opsImm [0x32, 0x35, 0x35])) 0x12345678 0 = some 0x00000078 := by decide

/-- R160. -/
theorem test_sll : a0After (.sll ops) 1 31 = some 0x80000000 := by decide

/-- R161. -/
theorem test_slli : a0After (.slli (opsImm [0x31, 0x32])) 0x00000123 0 = some 0x00123000 := by decide

/-- R162. -/
theorem test_srl : a0After (.srl ops) 0xF0000000 4 = some 0x0F000000 := by decide

/-- R163. -/
theorem test_srli : a0After (.srli (opsImm [0x33, 0x31])) 0x80000000 0 = some 1 := by decide

/-- R164. -/
theorem test_sra : a0After (.sra ops) 0xF0000000 4 = some 0xFF000000 := by decide

/-- R165. -/
theorem test_srai : a0After (.srai (opsImm [0x33, 0x31])) 0x80000000 0 = some 0xFFFFFFFF := by decide

/-- R166. -/
theorem test_slt : a0After (.slt ops) 0xFFFFFFFF 1 = some 1 := by decide

/-- R167. -/
theorem test_slti : a0After (.slti (opsImm [0x2D, 0x31])) 0xFFFFFFFE 0 = some 1 := by decide

/-- R168. -/
theorem test_sltu : a0After (.sltu ops) 0xFFFFFFFF 1 = some 0 := by decide

/-- R169. -/
theorem test_sltiu : a0After (.sltiu (opsImm [0x2D, 0x31])) 5 0 = some 1 := by decide

/-- R170. -/
theorem test_mul : a0After (.mul ops) 7 0xFFFFFFFD = some 0xFFFFFFEB := by decide

/-- R171. -/
theorem test_mulh : a0After (.mulh ops) 0x80000000 2 = some 0xFFFFFFFF := by decide

/-- R172. -/
theorem test_mulsu : a0After (.mulsu ops) 0xFFFFFFFE 0x80000000 = some 0xFFFFFFFF := by decide

/-- R173. -/
theorem test_mulu : a0After (.mulu ops) 0xFFFFFFFF 2 = some 0xFFFFFFFE := by decide

/-- R174. -/
theorem test_div : a0After (.div ops) 0xFFFFFFF9 2 = some 0xFFFFFFFD := by decide

/-- R175. -/
theorem test_divu : a0After (.divu ops) 0xFFFFFFFF 2 = some 0x7FFFFFFF := by decide

/-- R176. -/
theorem test_rem : a0After (.rem ops) 0xFFFFFFF9 2 = some 0xFFFFFFFF := by decide

/-- R177. -/
theorem test_remu : a0After (.remu ops) 0xFFFFFFFF 16 = some 15 := by decide

/-- R169: 0x00010000 is not below 65535; R174, R176: the overflow pair and a zero divisor.
R179: `div a0, a1, 2`. -/
theorem test_sltiu_wide : a0After (.sltiu (opsImm [0x2D, 0x31])) 0x00010000 0 = some 0 := by decide

theorem test_div_corners : a0After (.div ops) 0x80000000 0xFFFFFFFF = some 0x80000000 ∧
    a0After (.div ops) 7 0 = some 0xFFFFFFFF ∧
    exec (.div (opsImm [0x32])) State.reset = .next (State.reset.report (.err (.malformedRegisterName [0x32]))) :=
  ⟨by decide, by decide, rfl⟩

theorem test_rem_corners : a0After (.rem ops) 0x80000000 0xFFFFFFFF = some 0 ∧
    a0After (.rem ops) 7 0 = some 7 := by decide

/-- R147: `slli rd, rs1, -1` shifts by 31. -/
theorem test_slli_masks : a0After (.slli (opsImm [0x2D, 0x31])) 1 0 = some 0x80000000 := by decide

/-- R173: the low word, not that of the standard MULHU. -/
theorem test_mulu_low : a0After (.mulu ops) 0xFFFFFFFF 0xFFFFFFFF = some 1 := by decide

/-! ### One step on a line after reset -/

/-- `li a0, 0x10` (R130). -/
theorem test_step_li :
    outcomeOf [0x6C, 0x69, 0x20, 0x61, 0x30, 0x2C, 0x20, 0x30, 0x78, 0x31, 0x30] =
      some .ok := by
  decide

/-- `ret ra` (R100). -/
theorem test_step_ret_ra :
    outcomeOf [0x72, 0x65, 0x74, 0x20, 0x72, 0x61] =
      some (.err (.arityError [0x72, 0x65, 0x74])) := by
  decide

/-- `lw a0, 99999(x77)` (R83). -/
theorem test_step_lw :
    outcomeOf [0x6C, 0x77, 0x20, 0x61, 0x30, 0x2C, 0x20, 0x39, 0x39, 0x39, 0x39, 0x39, 0x28, 0x78, 0x37, 0x37, 0x29] =
      some .ok := by
  decide

/-- `add a0, a1` (R54) and `add 5, foo, 4096` (R86). -/
theorem test_step_add_errors :
    outcomeOf [0x61, 0x64, 0x64, 0x20, 0x61, 0x30, 0x2C, 0x20, 0x61, 0x31] = some (.err (.arityError [0x61, 0x64, 0x64])) ∧
    outcomeOf [0x61, 0x64, 0x64, 0x20, 0x35, 0x2C, 0x20, 0x66, 0x6F, 0x6F, 0x2C, 0x20, 0x34, 0x30, 0x39, 0x36] =
      some (.err (.malformedRegisterName [0x35])) := by
  decide

/-- `addi a0, zero, 2048` and `-2048` (R62), and `addi zero, zero, 5` (R13). -/
theorem test_step_addi :
    outcomeOf [0x61, 0x64, 0x64, 0x69, 0x20, 0x61, 0x30, 0x2C, 0x20, 0x7A, 0x65, 0x72, 0x6F, 0x2C, 0x20, 0x32, 0x30, 0x34, 0x38] =
      some (.err (.immediateOutOfRange [0x32, 0x30, 0x34, 0x38])) ∧
    outcomeOf [0x61, 0x64, 0x64, 0x69, 0x20, 0x61, 0x30, 0x2C, 0x20, 0x7A, 0x65, 0x72, 0x6F, 0x2C, 0x20, 0x2D, 0x32, 0x30, 0x34, 0x38] = some .ok ∧
    outcomeOf [0x61, 0x64, 0x64, 0x69, 0x20, 0x7A, 0x65, 0x72, 0x6F, 0x2C, 0x20, 0x7A, 0x65, 0x72, 0x6F, 0x2C, 0x20, 0x35] = some .ok := by
  decide

/-- `foo a0` (R189). -/
theorem test_step_unknown :
    outcomeOf [0x66, 0x6F, 0x6F, 0x20, 0x61, 0x30] =
      some (.err (.unknownInstruction [0x66, 0x6F, 0x6F])) := by
  decide

/-- R27: reset, and R18: the dump of slot 8 and of -1, under the defaults of D24. -/
theorem test_dump : (dump State.reset true)[8]? =
      some ([0x73, 0x30, 0x2F, 0x66, 0x70], [0x30, 0x30, 0x30, 0x30, 0x30, 0x30, 0x30, 0x30]) ∧
    renderWord defaultConfig false 0xFFFFFFFF = [0x2D, 0x31] ∧
    renderWord defaultConfig true 0xFFFFFFFE = [0x66, 0x66, 0x66, 0x66, 0x66, 0x66, 0x66, 0x65] := by
  decide

/-! ### Witnesses: the hypotheses of each obligation, met together -/

/-- RegisterFileReadsAndWrites: each clause at the boundary values of its range. -/
theorem witness_register_index : (0 : Nat) = 0 ∧ (0 < 1 ∧ 1 < 32) ∧ (0 < 31 ∧ 31 < 32) ∧ 31 < 32 := by decide

/-- ResetLeavesAllSlotsZero, DumpShowsEverySlotInOrder: the first and the last slot. -/
theorem witness_slot_index : (0 : Nat) < 32 ∧ (31 : Nat) < 32 ∧ (7 : Nat) ≠ 8 ∧ (9 : Nat) ≠ 8 := by decide

/-- DumpShowsEverySlotInOrder: each display name of slot 8, and each digit case. -/
theorem witness_dump_parameters : defaultConfig.slot8DisplayName = .s0SlashFp ∧
    ({ defaultConfig with slot8DisplayName := .s0 } : Config).slot8DisplayName = .s0 ∧
    ({ defaultConfig with slot8DisplayName := .fp } : Config).slot8DisplayName = .fp ∧
    (renderWord defaultConfig true 0xA).length = 8 ∧
    renderWord { defaultConfig with hexDigitCase := .upper } true 0xA =
      [0x30, 0x30, 0x30, 0x30, 0x30, 0x30, 0x30, 0x41] := by decide

/-- SlotZeroDestinationIsDiscarded, the A3S clauses: `zero, a1, a2` in register form. -/
theorem witness_zero_destination :
    SourcesA3S (stateWith 7 9 []) widenSigned ⟨tZero, tA1, tA2⟩ 0 7 9 ∧
    SourcesA3S (stateWith 7 9 []) (widenSltu defaultConfig) ⟨tZero, tA1, tA2⟩ 0 7 9 ∧
    SourcesA3R (stateWith 7 9 []) ⟨tZero, tA1, tA2⟩ 0 7 9 :=
  ⟨⟨rfl, ⟨11, rfl, by decide⟩, .inr ⟨by decide, 12, rfl, by decide⟩⟩,
    ⟨rfl, ⟨11, rfl, by decide⟩, .inr ⟨by decide, 12, rfl, by decide⟩⟩,
    rfl, ⟨11, rfl, by decide⟩, 12, rfl, by decide⟩

/-- The results of the A3S mnemonics: register form. -/
theorem witness_a3s_register : SourcesA3S (stateWith 0x80000000 0xFFFFFFFF []) widenSigned ops 10 0x80000000 0xFFFFFFFF :=
  ⟨rfl, ⟨11, rfl, by decide⟩, .inr ⟨by decide, 12, rfl, by decide⟩⟩

/-- The results of the A3S mnemonics: immediate form, `-2048`. -/
theorem witness_a3s_immediate :
    SourcesA3S (stateWith 1 0 []) widenSigned (opsImm [0x2D, 0x32, 0x30, 0x34, 0x38]) 10 1 0xFFFFF800 :=
  ⟨rfl, ⟨11, rfl, by decide⟩, .inl ⟨by decide, -2048, rfl, by decide⟩⟩

/-- CompareHandlersWriteOneOrZero, the SLTU clause: register form, and the immediate `-1`. -/
theorem witness_sltu :
    SourcesA3S (stateWith 5 9 []) (widenSltu defaultConfig) ops 10 5 9 ∧
    SourcesA3S (stateWith 5 9 []) (widenSltu defaultConfig) (opsImm [0x2D, 0x31]) 10 5 0xFFFF :=
  ⟨⟨rfl, ⟨11, rfl, by decide⟩, .inr ⟨by decide, 12, rfl, by decide⟩⟩,
    rfl, ⟨11, rfl, by decide⟩, .inl ⟨by decide, -1, rfl, by decide⟩⟩

/-- MultiplicationsWriteTheirWord, MulsuWritesTheHighWord, UnsignedDivisionsWriteQuotientAndRemainder. -/
theorem witness_a3r : SourcesA3R (stateWith 0xFFFFFFF9 2 []) ops 10 0xFFFFFFF9 2 :=
  ⟨rfl, ⟨11, rfl, by decide⟩, 12, rfl, by decide⟩

/-- SignedDivisionsTruncate. -/
theorem witness_signed_division : SourcesA3R (stateWith 0xFFFFFFF9 2 []) ops 10 0xFFFFFFF9 2 ∧
    (stateWith 0xFFFFFFF9 2 []).cfg.divRounding = .towardZero ∧
    (stateWith 0xFFFFFFF9 2 []).cfg.divOverflowQuot = 0x80000000 ∧
    (stateWith 0xFFFFFFF9 2 []).cfg.divOverflowRem = 0 :=
  ⟨witness_a3r, rfl, rfl, rfl⟩

/-- SignedDivisionsCompleteInEveryRounding: a zero divisor, the overflow pair, the pair beside it, and floor
rounding. -/
theorem witness_signed_division_cases :
    SourcesA3R (stateWith 7 0 []) ops 10 7 0 ∧
    SourcesA3R (stateWith 0x80000000 0xFFFFFFFF []) ops 10 0x80000000 0xFFFFFFFF ∧
    (SourcesA3R (stateWith 0x80000001 0xFFFFFFFF []) ops 10 0x80000001 0xFFFFFFFF ∧
      (0xFFFFFFFF : Word) ≠ 0 ∧ ¬ ((0x80000001 : Word) = 0x80000000 ∧ (0xFFFFFFFF : Word) = 0xFFFFFFFF) ∧
      (stateWith 0x80000001 0xFFFFFFFF []).cfg.divRounding = .towardZero) ∧
    ({ defaultConfig with divRounding := .towardMinusInfinity } : Config).divRounding = .towardMinusInfinity :=
  ⟨⟨rfl, ⟨11, rfl, by decide⟩, 12, rfl, by decide⟩, ⟨rfl, ⟨11, rfl, by decide⟩, 12, rfl, by decide⟩,
    ⟨⟨rfl, ⟨11, rfl, by decide⟩, 12, rfl, by decide⟩, by decide, by decide, rfl⟩, rfl⟩

/-- DecodeEncodeRoundTrip: with operands, and with another WHITESPACE. -/
theorem witness_round_trip : defaultConfig.wf = true ∧ Instr.wf defaultConfig (.lw ⟨tA0, [0x34, 0x28, 0x73, 0x70, 0x29], []⟩) = true ∧
    ({ defaultConfig with whitespace := [0x20] } : Config).wf = true := by decide

/-- DecodedInstructionIsWellFormed: `add a0 a1 a2`. -/
theorem witness_decodes : decode defaultConfig (encode (.add ops)) = .instr (.add ops) := by decide

/-- Commas become tabs. -/
def commaToTab (b : Byte) : Byte := if b = 0x2C then 0x09 else b

/-- SeparatorsAreInterchangeable. -/
theorem witness_separators : defaultConfig.wf = true ∧
    (∀ b, isSeparator defaultConfig b = true → isSeparator defaultConfig (commaToTab b) = true) ∧
    (∀ b, isSeparator defaultConfig b = false → commaToTab b = b) := by
  refine ⟨by decide, fun b hb => ?_, fun b hb => ?_⟩
  · unfold commaToTab
    split
    · decide
    · exact hb
  · unfold commaToTab
    rw [if_neg]
    rintro rfl
    revert hb
    decide

/-- TrailingCommentIsIgnored: each marker, after a space and after a comma. -/
theorem witness_comment : defaultConfig.wf = true ∧ isSeparator defaultConfig 0x20 = true ∧
    isSeparator defaultConfig 0x2C = true ∧ isMarker 0x23 = true ∧ isMarker 0x3B = true := by decide

/-- TokensAfterTheFourthAreIgnored: ` add a0, a1,a2 ` with three different gaps, and with no leading run. -/
theorem witness_four_tokens : defaultConfig.wf = true ∧
    (∀ t ∈ [[0x61, 0x64, 0x64], tA0, tA1, tA2], t ≠ [] ∧ ∀ x ∈ t, isTokenChar defaultConfig x = true) ∧
    (∀ sep ∈ ([[0x20], [0x2C, 0x20], [0x2C]] : List Line), sep ≠ []) ∧
    (∀ sep ∈ ([[0x20], [0x20], [0x2C, 0x20], [0x2C]] : List Line), ∀ x ∈ sep, isSeparator defaultConfig x = true) ∧
    (∀ sep ∈ ([[], [0x20], [0x2C, 0x20], [0x2C]] : List Line), ∀ x ∈ sep, isSeparator defaultConfig x = true) ∧
    isSeparator defaultConfig 0x20 = true := by decide

/-- The default parameters with LINE_MAX 5. -/
def boundedConfig : Config := { defaultConfig with lineMax := some 5 }

/-- BlankAndCommentLinesDoNothing: `,` and ` ;`, under the default and under a bound that it meets exactly. -/
theorem witness_blank : State.reset.cfg.wf = true ∧ Admitted State.reset.cfg ([0x2C, 0x20] ++ 0x3B :: [0x61, 0x62]) ∧
    Admitted boundedConfig ([0x2C, 0x20] ++ 0x3B :: [0x61, 0x62]) ∧
    (∀ b ∈ ([0x2C, 0x20] : Line), isSeparator State.reset.cfg b = true) ∧ isMarker 0x3B = true := by
  refine ⟨by decide, ?_, ?_, by decide, by decide⟩
  · intro m hm
    simp [State.reset, defaultConfig] at hm
  · intro m hm
    simp only [boundedConfig, Option.some.injEq] at hm
    subst hm
    decide

/-- UnknownInstructionExactlyOffTheTable, EveryLineEndsOkOrErr: every line is admitted after reset. -/
theorem witness_admitted (line : Line) : Admitted State.reset.cfg line := by
  intro m hm
  simp [State.reset, defaultConfig] at hm

/-- UnknownInstructionExactlyOffTheTable: `foo a0` meets the right-hand side. -/
theorem witness_unknown :
    (tokens defaultConfig (normalize defaultConfig [0x66, 0x6F, 0x6F, 0x20, 0x61, 0x30])).head? = some [0x66, 0x6F, 0x6F] ∧
    ([0x66, 0x6F, 0x6F] : Token) ≠ [] ∧ startsComment [0x66, 0x6F, 0x6F] = false ∧
    ∀ r ∈ mnemonicTable, r.token ≠ [0x66, 0x6F, 0x6F] := by decide

/-- NothingElseIsARegisterName: the defaults, and a token of each of its three kinds. -/
theorem witness_names : defaultConfig.regCaseSensitive = true ∧ defaultConfig.regLeadingZeroOk = false ∧
    (([0x78, 0x33, 0x31] : Token), 31) ∈ registerNames ∧
    reg defaultConfig 1 [] = .error (.emptyOperand 1) ∧
    reg defaultConfig 1 tX32 = .error (.malformedRegisterName tX32) := ⟨rfl, rfl, by decide, rfl, rfl⟩

/-- ImmediatesAreCanonicalDecimals: the boundary values `-2048`, `-1`, `0`, `2047`, and `2048`. -/
theorem witness_immediates : defaultConfig.immNegZeroOk = false ∧
    immval defaultConfig [0x2D, 0x32, 0x30, 0x34, 0x38] = .ok (-2048) ∧
    immval defaultConfig [0x30] = .ok 0 ∧ immval defaultConfig [0x32, 0x30, 0x34, 0x37] = .ok 2047 ∧
    immval defaultConfig [0x32, 0x30, 0x34, 0x38] = .error (.immediateOutOfRange [0x32, 0x30, 0x34, 0x38]) ∧
    (-2048 : Int) ≤ -2048 ∧ (2047 : Int) ≤ 2047 := ⟨rfl, rfl, rfl, rfl, rfl, by decide, by decide⟩

/-- FirstCharacterDecidesTheOperandForm: `0`, `9` and `-` begin an immediate, the characters beside the digits
do not, and each clause has a token that meets it. -/
theorem witness_operand_form :
    startsImmediate [0x30] = true ∧ startsImmediate [0x39] = true ∧ startsImmediate [0x2D, 0x31] = true ∧
    startsImmediate [0x2F] = false ∧ startsImmediate [0x3A] = false ∧ startsImmediate [0x2B, 0x35] = false ∧
    immval defaultConfig [0x39] = .ok 9 ∧ immval defaultConfig [0x2D] = .error (.immediateOutOfRange [0x2D]) ∧
    startsImmediate tA1 = false ∧ reg defaultConfig 3 tA1 = .ok 11 ∧
    reg defaultConfig 3 [0x2B, 0x35] = .error (.malformedRegisterName [0x2B, 0x35]) :=
  ⟨rfl, rfl, rfl, rfl, rfl, rfl, rfl, rfl, rfl, rfl, rfl⟩

/-- ImmediateWidening: both ends of the range. -/
theorem witness_widening : defaultConfig.sltuImmWidth = 16 ∧ (-2048 : Int) ≤ -2048 ∧ (-2048 : Int) ≤ 2047 ∧
    (-2048 : Int) ≤ 2047 ∧ (2047 : Int) ≤ 2047 := by decide

/-- ShiftAmountIsTheLowFiveBits: an amount of 32, which is 0 modulo 32. -/
theorem witness_shift : defaultConfig.shamtMask = 0x1F ∧ (32 : Word).toNat % 32 = 0 := by decide

/-- DividendIsDivisorTimesQuotientPlusRemainder: a pair away from the overflow, and the overflow pair. -/
theorem witness_identity : (2 : Word) ≠ 0 ∧ ¬ ((0xFFFFFFF9 : Word) = 0x80000000 ∧ (2 : Word) = 0xFFFFFFFF) ∧
    (0xFFFFFFFF : Word) ≠ 0 ∧ (defaultConfig.divOverflowQuot = 0x80000000 ∧ defaultConfig.divOverflowRem = 0) := by
  decide

/-- RemainderHasTheSignOfTheDividend. -/
theorem witness_remainder : defaultConfig.divRounding = .towardZero ∧ defaultConfig.divOverflowQuot = 0x80000000 ∧
    defaultConfig.divOverflowRem = 0 ∧ (2 : Word) ≠ 0 := by decide

/-- NoopMnemonicsSucceedAndDoNothing: a mnemonic of each family, on operands of its count. -/
theorem witness_noop :
    ((⟨[], [], []⟩ : Operands).gap = false ∧ (⟨[], [], []⟩ : Operands).count = (Instr.ret ⟨[], [], []⟩).arity State.reset.cfg) ∧
    (ops.gap = false ∧ ops.count = (Instr.beq ops).arity State.reset.cfg) ∧
    ((⟨tA0, tX32, []⟩ : Operands).gap = false ∧
      (⟨tA0, tX32, []⟩ : Operands).count = (Instr.lw ⟨tA0, tX32, []⟩).arity State.reset.cfg ∧
      (⟨tA0, tX32, []⟩ : Operands).count = (Instr.mv ⟨tA0, tX32, []⟩).arity State.reset.cfg) := by decide

/-- PairsShareOneHandler: three operands, and a wrong count. -/
theorem witness_pairs : (ops.gap = false ∧ ops.count = 3) ∧
    ¬ ((⟨tA0, tA1, []⟩ : Operands).gap = false ∧ (⟨tA0, tA1, []⟩ : Operands).count = 3) := by decide

/-- SourcesAreReadBeforeTheWrite. -/
theorem witness_sources : reg (stateWith 7 9 []).cfg 1 tA1 = .ok 11 := rfl

/-- ArityErrorExactlyOnAWrongCount: a wrong count, a gap, an error that goes out, and a NOOP mnemonic. -/
theorem witness_arity :
    (Instr.nop ⟨tA0, [], []⟩).operands.count ≠ (Instr.nop ⟨tA0, [], []⟩).arity defaultConfig ∧
    (Instr.add ⟨[], tA1, tA2⟩).operands.gap = true ∧ isNoop (.nop ⟨tA0, [], []⟩) = true ∧
    ∃ t, exec (.nop ⟨tA0, [], []⟩) State.reset = .next t ∧
      t.execOut = some (.err (.arityError [0x6E, 0x6F, 0x70])) :=
  ⟨by decide, by decide, by decide, _, rfl, rfl⟩

/-- FirstBadOperandIsReported: `x32` as op1, op2, op3, and `2048` as op3. -/
theorem witness_first_bad : isNoop (.add ops) = false ∧ (Instr.add ⟨tX32, tX32, tX32⟩).operands.gap = false ∧
    (Instr.add ⟨tX32, tX32, tX32⟩).operands.count = 3 ∧
    reg defaultConfig 1 tX32 = .error (.malformedRegisterName tX32) ∧
    (reg defaultConfig 1 tA0 = .ok 10 ∧ reg defaultConfig 2 tX32 = .error (.malformedRegisterName tX32)) ∧
    (reg defaultConfig 2 tA1 = .ok 11 ∧ (Instr.add (opsImm [0x32, 0x30, 0x34, 0x38])).row.format = .a3s ∧
      startsImmediate [0x32, 0x30, 0x34, 0x38] = true ∧
      immval defaultConfig [0x32, 0x30, 0x34, 0x38] = .error (.immediateOutOfRange [0x32, 0x30, 0x34, 0x38])) ∧
    (startsImmediate tX32 = false ∧ reg defaultConfig 3 tX32 = .error (.malformedRegisterName tX32)) :=
  ⟨rfl, rfl, rfl, rfl, ⟨rfl, rfl⟩, ⟨rfl, rfl, rfl, rfl⟩, rfl, rfl⟩

/-- ErrorsOfTheExecFormats: an EXEC instruction that ends in an error. -/
theorem witness_exec_error : isNoop (.add (opsImm tX32)) = false ∧
    ∃ t, exec (.add (opsImm tX32)) State.reset = .next t ∧ t.execOut = some (.err (.malformedRegisterName tX32)) :=
  ⟨rfl, _, rfl, rfl⟩

/-- AnErrorChangesNothingElse, AFailedLineContributesNothing: `x` is no instruction. -/
theorem witness_failed_line : ∃ t u v, execute [0x78] (stateWith 7 9 []) = .next t ∧
    t.execOut = some (.err (.unknownInstruction [0x78])) ∧
    runLines ([0x78] :: [encode (.add ops)]) (stateWith 7 9 []) = .next u ∧
    runLines [encode (.add ops)] (stateWith 7 9 []) = .next v :=
  ⟨_, _, _, rfl, rfl, rfl, rfl⟩

/-- OnlyTheDestinationSlotChanges, SucceedsExactlyWhenAccepted: `add a0, a1, a2` completes. -/
theorem witness_completes : ∃ t, exec (.add ops) (stateWith 7 9 []) = .next t ∧ t.execOut = some .ok := ⟨_, rfl, rfl⟩

/-- StepRunsTheDecodedInstruction. -/
theorem witness_step : Admitted (stateWith 7 9 [encode (.add ops)]).cfg (encode (.add ops)) ∧
    (stateWith 7 9 [encode (.add ops)]).input = encode (.add ops) :: [] ∧
    decode (stateWith 7 9 [encode (.add ops)]).cfg (encode (.add ops)) = .instr (.add ops) :=
  ⟨witness_admitted _, rfl, by decide⟩

/-- StepOnALineThatIsNoInstruction: a blank line and an unknown mnemonic. -/
theorem witness_step_no_instruction : Admitted State.reset.cfg [0x20] ∧
    (State.reset.present [0x20]).input = [0x20] :: [] ∧ decode State.reset.cfg [0x20] = .empty ∧
    (State.reset.present [0x78]).input = [0x78] :: [] ∧
    decode State.reset.cfg [0x78] = .illegal (.unknownInstruction [0x78]) :=
  ⟨witness_admitted _, rfl, by decide, rfl, by decide⟩

/-- StepWithoutALineHoldsTheState. -/
theorem witness_no_line : State.reset.input = [] := rfl

/-- LineLongerThanTheBoundIsRefused: one character over the bound. -/
theorem witness_long_line : ({ State.reset with cfg := boundedConfig, input := [[0x6E, 0x6F, 0x70, 0x20, 0x20, 0x20]] } : State).cfg.lineMax = some 5 ∧
    5 < ([0x6E, 0x6F, 0x70, 0x20, 0x20, 0x20] : Line).length := by decide

/-- NoErrorIsLatched, LaterLinesDoNotReachThePresentStep, EmptyOperandAndOutOfRangeAreUnreachable: a line is
presented and the step ends in an error. -/
theorem witness_step_error : (State.reset.present [0x78]).input ≠ [] ∧
    ∃ t, step (State.reset.present [0x78]) = .next t ∧ t.execOut = some (.err (.unknownInstruction [0x78])) :=
  ⟨by decide, _, rfl, rfl⟩

/-- StepsFoldTheTransactionsOverTheLines: two lines, under the default. -/
theorem witness_lines : ∀ line ∈ [[0x78], encode (.add ops)], Admitted State.reset.cfg line :=
  fun line _ => witness_admitted line

/-- InstancesAreIndependent: the second of two instances takes a step. -/
theorem witness_instances : ∃ ts, stepInstance 1 [State.reset, State.reset.present [0x78]] = some ts := ⟨_, rfl⟩

/-- EveryStepKeepsTheInvariant: a state of the invariant whose step is a next state. -/
theorem witness_invariant : Inv (stateWith 7 9 [encode (.add ops)]) ∧
    ∃ t, step (stateWith 7 9 [encode (.add ops)]) = .next t :=
  ⟨⟨by decide, fun e h => by simp [stateWith, State.reset] at h, by decide⟩, _, rfl⟩

end Sys2Proof.Tests
end

