-- ==== Sys2Proof/Proofs/Scope.lean ====
section
/-! PROOFS. Proofs/Scope.lean: a step with a line presented is one transaction on that line, and a
transaction on a line that decodes to an instruction is that instruction's exec (R5, R81). -/

namespace Sys2Proof.Machine

/-- With a line presented, a step is one transaction on it, from the state with that line taken (R5). -/
theorem step_of_input_cons {s : State} {line : Line} {rest : List Line} (h : s.input = line :: rest) :
    step s = execute line (s.withInput rest) := by
  simp only [step, nextTransaction, h]

/-- An admitted line that decodes to an instruction runs that instruction (R81). -/
theorem execute_of_decode_instr {line : Line} {s : State} {i : Instr} (ha : Admitted s.cfg line)
    (hd : decode s.cfg line = .instr i) : execute line s = exec i s := by
  rw [execute_eq (not_tooLong_of_admitted ha), hd]

/-- Settles O42: the step is a transaction on the first line presented, and taking that line leaves the
parameters alone, so the line is admitted and decodes as it did before. -/
theorem stepRunsTheDecodedInstruction : Obligations.StepRunsTheDecodedInstruction := by
  intro s line rest i hadm hin hdec
  calc step s = execute line (s.withInput rest) := step_of_input_cons hin
    _ = exec i (s.withInput rest) := execute_of_decode_instr (s := s.withInput rest) hadm hdec

end Sys2Proof.Machine
end

