-- ==== Sys2Proof/Proofs/RegisterFile.lean ====
section
/-! PROOFS. Proofs/RegisterFile.lean: the Register File operations and their reset values (R14 to R17, R27),
and EXEC instructions whose destination is slot 0 (R13, R87). -/

namespace Sys2Proof.Machine

/-! ### The operations -/

theorem rfReadUnsigned_slot (rf : RegFile) {i : Nat} (h : i < nReg) :
    rfReadUnsigned rf i = .ok (slotWord rf i).toNat := by
  simp [rfReadUnsigned, h]

/-- Slots 1 to 31 read what they store (R14). -/
theorem slotWord_pos (rf : RegFile) {i : Nat} (h0 : 0 < i) (h : i < nReg) : slotWord rf i = rf[i] := by
  simp only [slotWord, dif_pos (And.intro h0 h)]

theorem rfRead_outOfRange (rf : RegFile) {i : Nat} (h : ¬ i < nReg) : rfRead rf i = .error (.outOfRange i) := by
  simp [rfRead, h]

theorem rfReadUnsigned_outOfRange (rf : RegFile) {i : Nat} (h : ¬ i < nReg) :
    rfReadUnsigned rf i = .error (.outOfRange i) := by
  simp [rfReadUnsigned, h]

theorem rfWrite_outOfRange (rf : RegFile) {i : Nat} (v : Word) (h : ¬ i < nReg) :
    rfWrite rf i v = .error (.outOfRange i) := by
  simp [rfWrite, h]

/-- A write changes no read of another index, in or out of range (R16). -/
theorem rfRead_setSlot_other (rf : RegFile) {i j : Nat} (v : Word) (h : j ≠ i) :
    rfRead (setSlot rf i v) j = rfRead rf j := by
  simp only [rfRead, slotWord_setSlot_other rf v h]

/-- Settles O2: by the index, 0, 1 to 31, or above. -/
theorem registerFileReadsAndWrites : Obligations.RegisterFileReadsAndWrites := by
  intro rf i v
  refine ⟨?zero, ?slot, ?above⟩
  case zero =>
    rintro rfl
    have h : 0 < nReg := by decide
    refine ⟨?_, ?_, ?_⟩
    · rw [rfRead_slot rf h, slotWord_zero]
    · rw [rfReadUnsigned_slot rf h, slotWord_zero]
      rfl
    · rw [rfWrite_slot rf v h, setSlot_zero]
  case slot =>
    intro h0 h
    refine ⟨?_, ?_, setSlot rf i v, rfWrite_slot rf v h, ?_, fun j hj => rfRead_setSlot_other rf v hj⟩
    · rw [rfRead_slot rf h, slotWord_pos rf h0 h]
    · rw [rfReadUnsigned_slot rf h, slotWord_pos rf h0 h]
    · rw [rfRead_slot _ h, slotWord_setSlot_same rf v h0 h]
  case above =>
    intro h
    have hout : ¬ i < nReg := by simp only [nReg]; omega
    exact ⟨rfRead_outOfRange rf hout, rfReadUnsigned_outOfRange rf hout, rfWrite_outOfRange rf v hout⟩

/-! ### Reset -/

theorem slotWord_reset (i : Nat) : slotWord State.reset.rf i = 0 := by
  simp only [slotWord, State.reset_rf]
  split
  · exact Vector.getElem_replicate _
  · rfl

/-- Settles O1: both reads of a slot give the word stored there, which is 0. -/
theorem resetLeavesAllSlotsZero : Obligations.ResetLeavesAllSlotsZero := by
  refine ⟨State.reset_rf, fun i h => ⟨?_, ?_⟩⟩
  · rw [rfRead_slot _ h, slotWord_reset]
  · rw [rfReadUnsigned_slot _ h, slotWord_reset]
    rfl

/-! ### Destination slot 0 -/

@[simp] theorem State.retire_zero (s : State) (v : Word) : s.retire 0 v = s.report .ok := by
  simp only [State.retire, setSlot_zero, State.report]

/-- An A3S instruction with destination slot 0 writes nothing and ends `Ok` (R13, R87). -/
theorem execA3S_slot0 {i : Instr} {widen : Int → Word} {f : Word → Word → Word} {s : State} {a b : Word}
    (harity : i.arity s.cfg = 3) (h : SourcesA3S s widen i.operands 0 a b) :
    execA3S i widen f s = .next (s.report .ok) := by
  obtain ⟨hgap, hcount⟩ := h.count
  rw [execA3S_next ⟨hgap, hcount.trans harity.symm⟩ h, State.retire_zero]

/-- An A3R instruction with destination slot 0 writes nothing and ends `Ok` (R13, R87). -/
theorem execA3R_slot0 {i : Instr} {f : Word → Word → Word} {s : State} {a b : Word}
    (harity : i.arity s.cfg = 3) (h : SourcesA3R s i.operands 0 a b) :
    execA3R i f s = .next (s.report .ok) := by
  obtain ⟨hgap, hcount⟩ := h.count
  rw [execA3R_next ⟨hgap, hcount.trans harity.symm⟩ h, State.retire_zero]

/-- Settles O3: each mnemonic's meaning is its template, on the operands it carries. -/
theorem slotZeroDestinationIsDiscarded : Obligations.SlotZeroDestinationIsDiscarded := by
  refine ⟨?read, ?signed, ?sltu, ?threeRegisters⟩
  case read =>
    intro s
    rw [rfRead_slot s.rf (by decide), slotWord_zero]
  case signed =>
    intro mk hmk s o a b h
    fin_cases hmk <;> exact execA3S_slot0 (arity_exec _ _ rfl) h
  case sltu =>
    intro mk hmk s o a b h
    fin_cases hmk <;> exact execA3S_slot0 (arity_exec _ _ rfl) h
  case threeRegisters =>
    intro mk hmk s o a b h
    fin_cases hmk <;> exact execA3R_slot0 (arity_exec _ _ rfl) h

end Sys2Proof.Machine
end

