-- ==== Sys2Proof/Proofs/Outcomes.lean ====
section
/-! PROOFS. Proofs/Outcomes.lean: the errors a line can end in (R181 to R186), the invariant of the machine,
and that nothing of one transaction reaches the next, or another of several instances, but the Register File (R26, R28,
R94, R192). -/

namespace Sys2Proof.Machine

/-! ### Which errors go out -/

/-- Register resolution of a token that is there fails as a line can fail (R57, R184). -/
theorem reg_error_reportable {c : Config} {p : Nat} {tok : Token} {e : DecodeError} (hne : tok ≠ [])
    (h : reg c p tok = .error e) : Reportable e := by
  rcases reg_error h with ⟨hnil, -⟩ | ⟨-, rfl⟩
  · exact absurd hnil hne
  · exact hne

/-- An immediate token that is rejected begins with a digit or a minus sign (R59, R62). -/
theorem immval_error_reportable {c : Config} {tok : Token} {e : DecodeError}
    (hs : startsImmediate tok = true) (h : immval c tok = .error e) : Reportable e := by
  rw [immval_error h]
  exact hs

theorem operandsA3S_error_reportable {s : State} {widen : Int → Word} {o : Operands} {e : DecodeError}
    (hc : o.count = 3) (h : operandsA3S s widen o = .error e) : Reportable e := by
  obtain ⟨h1, h2, h3⟩ := ops_ne_nil_of_count hc
  rcases operandsA3S_error h with h | ⟨_, -, h⟩ | ⟨_, _, -, -, ⟨hs, h⟩ | ⟨-, h⟩⟩
  · exact reg_error_reportable h1 h
  · exact reg_error_reportable h2 h
  · exact immval_error_reportable hs h
  · exact reg_error_reportable h3 h

theorem operandsA3R_error_reportable {s : State} {o : Operands} {e : DecodeError}
    (hc : o.count = 3) (h : operandsA3R s o = .error e) : Reportable e := by
  obtain ⟨h1, h2, h3⟩ := ops_ne_nil_of_count hc
  rcases operandsA3R_error h with h | ⟨_, -, h⟩ | ⟨_, _, -, -, h⟩
  · exact reg_error_reportable h1 h
  · exact reg_error_reportable h2 h
  · exact reg_error_reportable h3 h

/-- An EXEC instruction that passes stage 6 has all three operands (R53, R54). -/
theorem ArityOk.count_exec {c : Config} {i : Instr} (h : ArityOk c i) (hn : isNoop i = false) :
    i.operands.count = 3 :=
  h.2.trans (arity_exec i c hn)

/-- An instruction ends only in errors a line can end in: its operands are resolved after stage 6 has found
all of them present (R54, R84). -/
theorem exec_error_reportable {i : Instr} {s t : State} {e : DecodeError} (h : exec i s = .next t)
    (he : t.execOut = some (.err e)) : Reportable e := by
  rcases exec_cases i s with ⟨-, hx⟩ | ⟨-, -, hx⟩ | ⟨ha, hn, -, ⟨e', hop, hx⟩ | ⟨_, _, _, _, -, hx⟩⟩ |
      ⟨ha, hn, -, ⟨e', hop, hx⟩ | ⟨_, _, _, _, -, hx⟩⟩ <;>
    cases hx.symm.trans h <;> cases he
  · exact ⟨i.row, row_mem i, rfl⟩
  · exact operandsA3S_error_reportable (ha.count_exec hn) hop
  · exact operandsA3R_error_reportable (ha.count_exec hn) hop

/-- The decoder rejects a line only for a mnemonic token that no table entry has (R52, R64). -/
theorem decode_illegal_reportable {c : Config} {line : Line} {e : DecodeError}
    (h : decode c line = .illegal e) : Reportable e := by
  rw [decode_eq_decodeTokens] at h
  have hsound : ∀ tok ∈ lineTokens c line, tok ≠ [] := fun tok ht => (tokens_sound c _ tok ht).1
  cases htoks : lineTokens c line with
  | nil => simp [htoks, decodeTokens] at h
  | cons mn rest =>
    have hmn : mn ≠ [] := hsound mn (by simp [htoks])
    simp only [htoks, decodeTokens] at h
    split at h
    · cases h
    · split at h
      · rename_i hl
        cases h
        exact ⟨hmn, lookup_none.mp hl⟩
      · cases h

/-- A transaction ends only in errors a line can end in (R181 to R186). -/
theorem execute_error_reportable {line : Line} {s t : State} {e : DecodeError}
    (h : execute line s = .next t) (he : t.execOut = some (.err e)) : Reportable e := by
  rcases execute_cases line s with ⟨-, hr⟩ | ⟨hl, -⟩
  · rw [hr] at h
    cases h
  · rw [execute_eq hl] at h
    cases hd : decode s.cfg line with
    | empty =>
      rw [hd] at h
      cases h
      cases he
    | illegal e' =>
      rw [hd] at h
      cases h
      cases he
      exact decode_illegal_reportable hd
    | instr i =>
      rw [hd] at h
      exact exec_error_reportable h he

/-- Settles O53: a step with a line presented is a transaction on it. -/
theorem emptyOperandAndOutOfRangeAreUnreachable : Obligations.EmptyOperandAndOutOfRangeAreUnreachable := by
  intro s t e hin h he
  rcases step_cases h with ⟨hnil, -⟩ | ⟨line, rest, -, hx, -⟩
  · exact absurd hnil hin
  · exact execute_error_reportable hx he

/-! ### The invariant -/

/-- No end of a transaction changes the word stored in slot 0 (R13). -/
theorem EndsFrom.slot0 {s t : State} (h : EndsFrom s t) : t.rf[0] = s.rf[0] := by
  rcases h with ⟨_, rfl⟩ | rfl | ⟨rd, v, -, rfl⟩
  · rfl
  · rfl
  · exact setSlot_slot0 s.rf rd v

/-- Settles O51: an idle step keeps the state; a transaction leaves slot 0 and the parameters as they were,
and carries out no error but a reportable one. -/
theorem everyStepKeepsTheInvariant : Obligations.EveryStepKeepsTheInvariant := by
  intro s t hinv h
  have ⟨hzero, _, hwf⟩ := hinv
  rcases step_cases h with ⟨-, rfl⟩ | ⟨line, rest, -, hx, hends⟩
  · exact hinv
  · refine ⟨?_, fun e he => execute_error_reportable hx he, ?_⟩
    · exact hends.slot0.trans hzero
    · rw [hends.cfg]
      exact hwf

/-- Settles O52: the reset state stores 0 everywhere, has no outcome yet, and the default parameters are
sound. -/
theorem resetMeetsTheInvariant : Obligations.ResetMeetsTheInvariant := by
  refine ⟨?_, ?_, ?_⟩
  · decide
  · intro e he
    simp at he
  · decide

/-! ### Nothing is latched -/

/-- No transaction reads the outcome of the one before (R26). -/
theorem execute_execOut (line : Line) (s : State) (r : Option Result) :
    execute line { s with execOut := r } = execute line s := by
  cases hl : tooLong s.cfg line
  · rw [execute_eq hl, execute_eq (s := { s with execOut := r }) hl]
    cases decode s.cfg line with
    | empty => rfl
    | illegal e => rfl
    | instr i => exact exec_execOut i s r
  · simp only [execute, hl, if_true]

/-- With a line presented, a step does not read the outcome of the one before (R26). -/
theorem step_execOut {s : State} (hin : s.input ≠ []) (r : Option Result) :
    step { s with execOut := r } = step s := by
  obtain ⟨line, rest, hs⟩ := List.exists_cons_of_ne_nil hin
  calc step { s with execOut := r }
      = execute line { s.withInput rest with execOut := r } := step_of_input_cons (s := { s with execOut := r }) hs
    _ = execute line (s.withInput rest) := execute_execOut line (s.withInput rest) r
    _ = step s := (step_of_input_cons hs).symm

/-- Settles O46: both steps are the step of `s` itself. -/
theorem noErrorIsLatched : Obligations.NoErrorIsLatched := by
  intro s r1 r2 hin
  rw [step_execOut hin r1, step_execOut hin r2]

/-- A program of at least one line does not read the outcome of the transaction before it (R26, R94). -/
theorem runLines_execOut {rest : List Line} (hne : rest ≠ []) (s : State) (r : Option Result) :
    runLines rest { s with execOut := r } = runLines rest s := by
  cases rest with
  | nil => exact absurd rfl hne
  | cons line rest => simp only [runLines, execute_execOut]

/-- A transaction that ends in an error changes nothing else (R190). -/
theorem EndsFrom.eq_report_of_err {s t : State} {e : DecodeError} (h : EndsFrom s t)
    (he : t.execOut = some (.err e)) : t = s.report (.err e) := by
  rcases h with ⟨e', rfl⟩ | rfl | ⟨_, _, -, rfl⟩ <;> cases he
  rfl

theorem execute_ends {line : Line} {s t : State} (h : execute line s = .next t) : EndsFrom s t := by
  rcases execute_cases line s with ⟨-, hr⟩ | ⟨-, u, hu, hends⟩
  · cases hr.symm.trans h
  · cases hu.symm.trans h
    exact hends

/-- Settles O49: the failing line leaves `s` but for the outcome, which the next line does not read; where no
line follows, the two programs end in states that differ in the outcome only. -/
theorem aFailedLineContributesNothing : Obligations.AFailedLineContributesNothing := by
  intro line rest s t u v e hx he hu hv
  obtain rfl : t = s.report (.err e) := (execute_ends hx).eq_report_of_err he
  simp only [runLines, hx] at hu
  by_cases hne : rest = []
  · subst hne
    cases hu
    cases hv
    exact ⟨rfl, rfl, fun h => absurd rfl h⟩
  · have huv : u = v := by
      rw [State.report, runLines_execOut hne, hv] at hu
      cases hu
      rfl
    exact huv ▸ ⟨rfl, rfl, fun _ => rfl⟩

/-! ### Instances side by side -/

/-- What a step of number `k` of several instances is: its own step, put in its own place (R28, R200). -/
theorem stepInstance_some {k : Nat} {ss ts : List State} (h : stepInstance k ss = some ts) :
    ∃ s t, ss[k]? = some s ∧ step s = .next t ∧ ts = ss.set k t := by
  unfold stepInstance at h
  split at h
  · cases h
  · rename_i s hs
    split at h
    · rename_i t ht
      cases h
      exact ⟨s, t, hs, ht, rfl⟩
    · cases h
    · cases h

/-- Settles O50: the step replaces the element at its own place and no other. -/
theorem instancesAreIndependent : Obligations.InstancesAreIndependent := by
  intro k ss ts h
  obtain ⟨s, t, hs, hstep, rfl⟩ := stepInstance_some h
  obtain ⟨hk, -⟩ := List.getElem?_eq_some_iff.mp hs
  refine ⟨List.length_set, fun j hj => List.getElem?_set_ne hj.symm, s, t, hs, ?_, hstep⟩
  exact List.getElem?_set_self hk

end Sys2Proof.Machine
end

