-- ==== Sys2Proof/Proofs/Dump.lean ====
section
/-! PROOFS. Proofs/Dump.lean: what port DUMP shows (R12, R18), and that its two renderings read back as the
word they stand for (D24). -/

namespace Sys2Proof.Machine

/-! ### Hexadecimal digits -/

/-- What a hexadecimal digit can be, letters in the case of HEX_DIGIT_CASE (D24). -/
theorem hexDigit_class (k : HexCase) {d : Nat} (h : d < 16) :
    isDigit (hexDigit k d) = true ∨
    (k = .lower ∧ 0x61 ≤ (hexDigit k d).toNat ∧ (hexDigit k d).toNat ≤ 0x66) ∨
    (k = .upper ∧ 0x41 ≤ (hexDigit k d).toNat ∧ (hexDigit k d).toNat ≤ 0x46) := by
  revert d
  cases k <;> decide

theorem hexDigits_length (k : HexCase) (n m : Nat) : (hexDigits k n m).length = n := by
  induction n generalizing m with
  | zero => rfl
  | succ n ih => simp [hexDigits, ih]

theorem mem_hexDigits {k : HexCase} {n m : Nat} {b : Byte} (h : b ∈ hexDigits k n m) :
    ∃ d, d < 16 ∧ b = hexDigit k d := by
  induction n generalizing m with
  | zero => simp [hexDigits] at h
  | succ n ih =>
    rcases List.mem_append.mp h with h | h
    · exact ih h
    · exact ⟨m % 16, Nat.mod_lt _ (by decide), List.mem_singleton.mp h⟩

theorem hexValue_append_digit (k : HexCase) (t : Token) {d : Nat} (h : d < 16) :
    hexValue (t ++ [hexDigit k d]) = 16 * hexValue t + d := by
  have hd : hexValue [hexDigit k d] = d := by
    revert d
    cases k <;> decide
  simp only [hexValue, List.foldl_cons, List.foldl_nil, Nat.mul_zero, Nat.zero_add] at hd
  simp only [hexValue, List.foldl_append, List.foldl_cons, List.foldl_nil, hd]

/-- The low `n` hexadecimal digits denote the number modulo `16 ^ n`. -/
theorem hexValue_hexDigits (k : HexCase) (n m : Nat) : hexValue (hexDigits k n m) = m % 16 ^ n := by
  induction n generalizing m with
  | zero => simp [hexDigits, hexValue, Nat.mod_one]
  | succ n ih =>
    rw [hexDigits, hexValue_append_digit k _ (Nat.mod_lt m (by decide)), ih, Nat.pow_succ', Nat.mod_mul,
      Nat.add_comm]

/-! ### Decimal numerals -/

theorem decDigit_isDigit {d : Nat} (h : d < 10) : isDigit (BitVec.ofNat 8 (0x30 + d)) = true := by
  revert d
  decide

theorem digitVal_decDigit {d : Nat} (h : d < 10) : digitVal (BitVec.ofNat 8 (0x30 + d)) = d := by
  revert d
  decide

theorem decDigit_ne_zero {d : Nat} (h : d < 10) (h0 : d ≠ 0) : BitVec.ofNat 8 (0x30 + d) ≠ chZero := by
  revert d
  decide

theorem decDigits_isDigit (f m : Nat) : ∀ b ∈ decDigits f m, isDigit b = true := by
  induction f generalizing m with
  | zero => simp [decDigits]
  | succ f ih =>
    intro b hb
    rcases List.mem_append.mp hb with hb | hb
    · split at hb
      · simp at hb
      · exact ih (m / 10) b hb
    · rw [List.mem_singleton.mp hb]
      exact decDigit_isDigit (Nat.mod_lt m (by decide))

theorem digitsVal_append_digit (t : Token) {d : Nat} (h : d < 10) :
    digitsVal (t ++ [BitVec.ofNat 8 (0x30 + d)]) = 10 * digitsVal t + d := by
  simp only [digitsVal, List.foldl_append, List.foldl_cons, List.foldl_nil, digitVal_decDigit h]

/-- With fuel for all its digits, the decimal digits of a number denote it. -/
theorem digitsVal_decDigits {f m : Nat} (h : m < 10 ^ f) : digitsVal (decDigits f m) = m := by
  induction f generalizing m with
  | zero =>
    obtain rfl : m = 0 := by simpa using h
    rfl
  | succ f ih =>
    rw [decDigits, digitsVal_append_digit _ (Nat.mod_lt m (by decide))]
    split
    · simp only [digitsVal, List.foldl_nil]
      omega
    · rw [ih (by rw [Nat.pow_succ] at h; omega)]
      omega

/-- The first digit of a positive number with fuel for all its digits is not `0` (R61). -/
theorem decDigits_head {f m : Nat} (h0 : 0 < m) (h : m < 10 ^ f) :
    ∃ d ds, decDigits f m = d :: ds ∧ d ≠ chZero := by
  induction f generalizing m with
  | zero => simp only [Nat.pow_zero] at h; omega
  | succ f ih =>
    rw [decDigits]
    split
    · exact ⟨_, [], rfl, decDigit_ne_zero (Nat.mod_lt m (by decide)) (by omega)⟩
    · obtain ⟨d, ds, heq, hd⟩ := ih (m := m / 10) (by omega) (by rw [Nat.pow_succ] at h; omega)
      exact ⟨d, ds ++ _, by rw [heq]; rfl, hd⟩

/-- The decimal digits of a number of at most 10 digits are its canonical numeral (R61, D24). -/
theorem canonicalNumeral_decDigits {m : Nat} (h : m < 10 ^ 10) : canonicalNumeral (decDigits 10 m) = some m := by
  rcases Nat.eq_zero_or_pos m with rfl | h0
  · rfl
  · obtain ⟨d, ds, heq, hd⟩ := decDigits_head h0 h
    have hall : (d :: ds).all isDigit = true := List.all_eq_true.mpr (heq ▸ decDigits_isDigit 10 m)
    have hval : digitsVal (d :: ds) = m := heq ▸ digitsVal_decDigits h
    simp [heq, canonicalNumeral, hall, hd, hval]

/-- A canonical numeral is a literal: it begins with a digit, so not with a minus sign (R61). -/
theorem literalValue_of_canonicalNumeral (c : Config) {t : Token} {n : Nat} (h : canonicalNumeral t = some n) :
    literalValue c t = some (n : Int) := by
  cases t with
  | nil => simp [canonicalNumeral] at h
  | cons b ds =>
    have hb : b ≠ chMinus := by
      rintro rfl
      have hdigit : isDigit chMinus = false := by decide
      simp [canonicalNumeral, hdigit] at h
    simp only [literalValue, if_neg hb, h]

/-- A minus sign before a canonical numeral other than `0` negates it, whatever IMM_NEG_ZERO_OK (R61). -/
theorem literalValue_minus (c : Config) {t : Token} {n : Nat} (h : canonicalNumeral t = some n) (h0 : n ≠ 0) :
    literalValue c (chMinus :: t) = some (-(n : Int)) := by
  simp [literalValue, h, h0]

/-- The decimal text of an integer of at most 10 digits is a literal that denotes it (D24, R61). -/
theorem literalValue_decimalText (c : Config) {n : Int} (h : n.natAbs < 10 ^ 10) :
    literalValue c (decimalText n) = some n := by
  have hnum := canonicalNumeral_decDigits h
  unfold decimalText
  split
  · rw [literalValue_minus c hnum (by omega)]
    congr 1
    omega
  · rw [literalValue_of_canonicalNumeral c hnum]
    congr 1
    omega

/-! ### The renderings of a word -/

theorem hexValue_renderWord (c : Config) (v : Word) : hexValue (renderWord c true v) = v.toNat := by
  rw [renderWord, if_pos rfl, hexValue_hexDigits]
  exact Nat.mod_eq_of_lt v.isLt

theorem natAbs_toInt_lt (v : Word) : v.toInt.natAbs < 10 ^ 10 := by
  have hle := BitVec.toInt_le (x := v)
  have hge := BitVec.le_toInt v
  omega

/-- Settles O55: each rendering is read back by the digits it is made of. -/
theorem dumpRenderingsDenoteTheSameWord : Obligations.DumpRenderingsDenoteTheSameWord := by
  intro c v
  refine ⟨hexValue_renderWord c v, literalValue_decimalText c (natAbs_toInt_lt v), ?_⟩
  rw [hexValue_renderWord]
  exact w32_uval v

/-- The hexadecimal rendering is 8 digits in the case of HEX_DIGIT_CASE (R18, D24). -/
theorem renderWord_hex_digits (c : Config) (v : Word) :
    (renderWord c true v).length = 8 ∧ ∀ b ∈ renderWord c true v, isDigit b = true ∨
      (c.hexDigitCase = .lower ∧ 0x61 ≤ b.toNat ∧ b.toNat ≤ 0x66) ∨
      (c.hexDigitCase = .upper ∧ 0x41 ≤ b.toNat ∧ b.toNat ≤ 0x46) := by
  rw [renderWord, if_pos rfl]
  refine ⟨hexDigits_length _ _ _, fun b hb => ?_⟩
  obtain ⟨d, hd, rfl⟩ := mem_hexDigits hb
  exact hexDigit_class c.hexDigitCase hd

/-! ### The pairs of a dump -/

theorem dumpWords_length (s : State) : (dumpWords s).length = 32 := by
  rw [dumpWords, List.length_map, List.length_range]

theorem dumpWords_getElem? (s : State) {i : Nat} (h : i < 32) :
    (dumpWords s)[i]? = some (displayName s.cfg i, s.x i) := by
  rw [dumpWords, List.getElem?_map, List.getElem?_range h, Option.map_some]

theorem dump_length (s : State) (hexadecimal : Bool) : (dump s hexadecimal).length = 32 := by
  rw [dump, List.length_map, dumpWords_length]

theorem dump_getElem? (s : State) (hexadecimal : Bool) {i : Nat} (h : i < 32) :
    (dump s hexadecimal)[i]? = some (displayName s.cfg i, renderWord s.cfg hexadecimal (s.x i)) := by
  rw [dump, List.getElem?_map, dumpWords_getElem? s h, Option.map_some]

/-- The names of R12 are those of R58, slot 8 apart, whichever name slot 8 shows. -/
theorem displayName_mem_abiNames_of_slot8Name (n : Slot8Name) : ∀ i, i < 32 → i ≠ 8 →
    (displayName { defaultConfig with slot8DisplayName := n } i, i) ∈ abiNames := by
  cases n <;> decide

/-- No other parameter reaches a display name (R12). -/
theorem displayName_mem_abiNames (c : Config) {i : Nat} (h : i < 32) (h8 : i ≠ 8) :
    (displayName c i, i) ∈ abiNames :=
  displayName_mem_abiNames_of_slot8Name c.slot8DisplayName i h h8

theorem displayName_eight (c : Config) : displayName c 8 = slot8Name c.slot8DisplayName := rfl

/-- Settles O54: pair `i` carries `x[i]`, which is what `read(i)` returns. -/
theorem dumpShowsEverySlotInOrder : Obligations.DumpShowsEverySlotInOrder := by
  intro s
  refine ⟨dumpWords_length s, dump_length s, ?pairs, ?pairZero, fun i h h8 => displayName_mem_abiNames s.cfg h h8,
    ?s0SlashFp, ?s0, ?fp, ?hex⟩
  case pairs =>
    intro i h
    exact ⟨s.x i, rfRead_slot s.rf h, dumpWords_getElem? s h, fun hexadecimal => dump_getElem? s hexadecimal h⟩
  case pairZero =>
    rw [dumpWords_getElem? s (by decide), State.x_zero]
    rfl
  case s0SlashFp =>
    intro hn
    rw [displayName_eight, hn]
    rfl
  case s0 =>
    intro hn
    rw [displayName_eight, hn]
    rfl
  case fp =>
    intro hn
    rw [displayName_eight, hn]
    rfl
  case hex =>
    intro p hp
    obtain ⟨q, -, rfl⟩ := List.mem_map.mp hp
    exact renderWord_hex_digits s.cfg q.2

end Sys2Proof.Machine
end

