-- ==== Sys2Proof/Proofs/LaterLines.lean ====
section
/-! PROOFS. Proofs/LaterLines.lean: a transaction does not look at the lines still to come, so a line
presented later changes nothing of the present step (R36). -/

namespace Sys2Proof.Machine

/-- No transaction reads the lines still to come (R36). -/
theorem execute_withInput (line : Line) (s : State) (l : List Line) :
    execute line (s.withInput l) = answerWithInput (execute line s) l := by
  cases hl : tooLong s.cfg line
  · rw [execute_eq hl, execute_eq (s := s.withInput l) hl, State.withInput_cfg]
    cases decode s.cfg line with
    | empty => rfl
    | illegal e => rfl
    | instr i => exact exec_withInput i s l
  · simp only [execute, State.withInput_cfg, hl, if_true, answerWithInput]

/-- Settles O47: both steps are a transaction on the same line, which leaves the lines still to come as they
are: `rest`, or `rest` and the later line. -/
theorem laterLinesDoNotReachThePresentStep : Obligations.LaterLinesDoNotReachThePresentStep := by
  intro s t later hin h
  rcases step_cases h with ⟨hnil, -⟩ | ⟨line, rest, hs, hx, hends⟩
  · exact absurd hnil hin
  · have hrest : t.input = rest := hends.input
    have hpresent : (s.present later).input = line :: (rest ++ [later]) := by
      rw [State.present_input, hs, List.cons_append]
    calc step (s.present later)
        = execute line ((s.withInput rest).withInput (rest ++ [later])) := step_of_input_cons hpresent
      _ = answerWithInput (.next t) (rest ++ [later]) := by rw [execute_withInput, hx]
      _ = .next (t.present later) := by rw [← hrest]; rfl

end Sys2Proof.Machine
end

