-- ==== Sys2Proof/Proofs/LineTokens.lean ====
section
/-! PROOFS. Proofs/LineTokens.lean: the character classes of R44, the tokens of a line put together from its
parts (R46, R48), and what the decoder makes of them: which tokens it ignores (R48, R50). -/

namespace Sys2Proof.Machine

/-! ### Character classes -/

theorem isSeparator_iff (c : Config) (b : Byte) :
    isSeparator c b = true ↔ b = chComma ∨ isSpace c b = true :=
  not_isTokenChar_iff c b

theorem isTokenChar_iff (c : Config) (b : Byte) :
    isTokenChar c b = true ↔ b ≠ chComma ∧ isSpace c b = false := by
  have h : isTokenChar c b = true ↔ ¬ isSeparator c b = true := by simp [isSeparator]
  rw [h, isSeparator_iff, not_or, Bool.not_eq_true]

/-- The space that a comma becomes separates (R46). -/
theorem isSpace_chSpace {c : Config} (hwf : c.wf = true) : isSpace c chSpace = true := by
  simp only [Config.wf, Bool.and_eq_true] at hwf
  obtain ⟨⟨⟨hspace, -⟩, -⟩, -⟩ := hwf
  exact hspace

/-- The default WHITESPACE, the six characters of D2, holds every other that is admissible (U6). -/
theorem isSpace_default {c : Config} (hwf : c.wf = true) {b : Byte} (h : isSpace c b = true) :
    isSpace defaultConfig b = true := by
  simp only [Config.wf, Bool.and_eq_true, List.all_eq_true] at hwf
  obtain ⟨⟨⟨-, hall⟩, -⟩, -⟩ := hwf
  exact hall b (of_decide_eq_true h)

/-- So a token character by default is one under every choice of the parameters. -/
theorem isTokenChar_of_default {c : Config} (hwf : c.wf = true) {b : Byte}
    (h : isTokenChar defaultConfig b = true) : isTokenChar c b = true := by
  obtain ⟨hcomma, hspace⟩ := (isTokenChar_iff defaultConfig b).mp h
  refine (isTokenChar_iff c b).mpr ⟨hcomma, ?_⟩
  by_contra hb
  rw [Bool.not_eq_false] at hb
  rw [isSpace_default hwf hb] at hspace
  cases hspace

theorem isTokenChar_of_isMarker {c : Config} (hwf : c.wf = true) {b : Byte} (h : isMarker b = true) :
    isTokenChar c b = true := by
  simp only [isMarker, Bool.or_eq_true, decide_eq_true_eq] at h
  rcases h with rfl | rfl <;> exact isTokenChar_of_default hwf (by decide)

theorem commaToSpace_ne_comma (b : Byte) : commaToSpace b ≠ chComma := by
  unfold commaToSpace
  split
  · decide
  · assumption

theorem commaToSpace_of_isTokenChar {c : Config} {b : Byte} (h : isTokenChar c b = true) :
    commaToSpace b = b :=
  if_neg ((isTokenChar_iff c b).mp h).1

/-- Once commas are spaces, the separators are exactly the whitespace (R44, R46). -/
theorem isSpace_commaToSpace {c : Config} (hwf : c.wf = true) (b : Byte) :
    isSpace c (commaToSpace b) = isSeparator c b := by
  rw [Bool.eq_iff_iff, isSeparator_iff]
  unfold commaToSpace
  split
  · rename_i hb
    simp [hb, isSpace_chSpace hwf]
  · rename_i hb
    simp [hb]

/-! ### The tokens of a line, part by part -/

/-- A line is cut at a separator (R46, R48). -/
theorem lineTokens_append_sep {c : Config} (hwf : c.wf = true) (l m : Line) {b : Byte}
    (h : isSeparator c b = true) :
    lineTokens c (l ++ b :: m) = lineTokens c l ++ lineTokens c m := by
  rw [← isSpace_commaToSpace hwf] at h
  simp only [lineTokens, List.map_append, List.map_cons, tokens_append_space c _ _ h]

/-- Leading separators are no part of a token (R46). -/
theorem lineTokens_seps_append {c : Config} (hwf : c.wf = true) {seps : Line}
    (h : ∀ b ∈ seps, isSeparator c b = true) (m : Line) :
    lineTokens c (seps ++ m) = lineTokens c m := by
  induction seps with
  | nil => rfl
  | cons b seps ih =>
    rw [List.forall_mem_cons] at h
    calc lineTokens c ([] ++ b :: (seps ++ m))
        = lineTokens c [] ++ lineTokens c (seps ++ m) := lineTokens_append_sep hwf _ _ h.1
      _ = lineTokens c m := ih h.2

/-- A gap of separators cuts a line (R48). -/
theorem lineTokens_append_seps {c : Config} (hwf : c.wf = true) (l : Line) {seps : Line} (hne : seps ≠ [])
    (h : ∀ b ∈ seps, isSeparator c b = true) (m : Line) :
    lineTokens c (l ++ (seps ++ m)) = lineTokens c l ++ lineTokens c m := by
  cases seps with
  | nil => exact absurd rfl hne
  | cons b seps =>
    rw [List.forall_mem_cons] at h
    rw [List.cons_append, lineTokens_append_sep hwf l _ h.1, lineTokens_seps_append hwf h.2]

/-- A run of token characters is one token (R48). -/
theorem lineTokens_run {c : Config} {t : Token} (hne : t ≠ []) (h : ∀ b ∈ t, isTokenChar c b = true) :
    lineTokens c t = [t] := by
  have hmap : t.map commaToSpace = t :=
    (List.map_congr_left fun b hb => commaToSpace_of_isTokenChar (h b hb)).trans (List.map_id' t)
  rw [lineTokens, hmap, tokens_run c t hne fun b hb => ((isTokenChar_iff c b).mp (h b hb)).2]

/-- Every token of a line is a non-empty run of token characters (R44, R48). -/
theorem mem_lineTokens {c : Config} {line : Line} {t : Token} (ht : t ∈ lineTokens c line) :
    t ≠ [] ∧ ∀ b ∈ t, isTokenChar c b = true := by
  obtain ⟨hne, hchars⟩ := tokens_sound c _ t ht
  refine ⟨hne, fun b hb => (isTokenChar_iff c b).mpr ⟨?_, (hchars b hb).1⟩⟩
  obtain ⟨a, -, rfl⟩ := List.mem_map.mp (hchars b hb).2
  exact commaToSpace_ne_comma a

/-- A marker that begins a line begins its first token (R44, R48). -/
theorem lineTokens_marker {c : Config} (hwf : c.wf = true) {marker : Byte} (h : isMarker marker = true)
    (rest : Line) : ∃ u us, lineTokens c (marker :: rest) = u :: us ∧ startsComment u = true := by
  have htok := isTokenChar_of_isMarker hwf h
  obtain ⟨u, us, hu⟩ := tokens_cons_head c (rest.map commaToSpace) ((isTokenChar_iff c marker).mp htok).2
  refine ⟨marker :: u, us, ?_, ?_⟩
  · rw [lineTokens, List.map_cons, commaToSpace_of_isTokenChar htok, hu]
  · simpa [startsComment] using h

/-- The tokenizer sees of a character only whether it is whitespace and, if it is not, which it is (R48). -/
theorem tokens_map_congr (c : Config) (f g : Byte → Byte)
    (h : ∀ b, (isSpace c (f b) = true ∧ isSpace c (g b) = true) ∨ f b = g b) (l : Line) :
    tokens c (l.map f) = tokens c (l.map g) := by
  have key : scanTokens c (l.map f) = scanTokens c (l.map g) := by
    induction l with
    | nil => rfl
    | cons b l ih =>
      simp only [List.map_cons, scanTokens, ih]
      rcases h b with ⟨hf, hg⟩ | heq
      · simp only [hf, hg, if_true]
      · rw [heq]
  simp only [tokens, key]

/-! ### What the decoder makes of the tokens -/

/-- An operand that begins a comment is cleared, and all after it (R50). -/
theorem stripComment_operandFields_append {u : Token} (hu : startsComment u = true) (ts us : List Token) :
    stripComment (operandFields (ts ++ u :: us)) = stripComment (operandFields ts) := by
  have hnil : startsComment [] = false := rfl
  match ts with
  | [] => simp [operandFields, stripComment, hu, hnil]
  | [a] => simp [operandFields, stripComment, hu, hnil]
  | [a, b] => simp [operandFields, stripComment, hu, hnil]
  | a :: b :: d :: ts => rfl

/-- The first token that begins a comment ends the line (R47, R50). -/
theorem decodeTokens_append_comment {u : Token} (hu : startsComment u = true) (ts us : List Token) :
    decodeTokens (ts ++ u :: us) = decodeTokens ts := by
  cases ts with
  | nil => simp only [List.nil_append, decodeTokens, hu, if_true]
  | cons mn ts => simp only [List.cons_append, decodeTokens, stripComment_operandFields_append hu]

/-- The decoder looks at no token after the fourth (R48, D35). -/
theorem decodeTokens_four (t1 t2 t3 t4 : Token) (ts : List Token) :
    decodeTokens (t1 :: t2 :: t3 :: t4 :: ts) = decodeTokens [t1, t2, t3, t4] := rfl

/-- Settles O6: the exchange changes no character the tokenizer looks at. -/
theorem separatorsAreInterchangeable : Obligations.SeparatorsAreInterchangeable := by
  intro c g line hwf hsep hfix
  have htoks : lineTokens c (line.map g) = lineTokens c line := by
    rw [lineTokens, List.map_map]
    refine tokens_map_congr c _ _ (fun b => ?_) line
    cases hb : isSeparator c b
    · exact .inr (congrArg commaToSpace (hfix b hb))
    · exact .inl ⟨(isSpace_commaToSpace hwf _).trans (hsep b hb), (isSpace_commaToSpace hwf b).trans hb⟩
  rw [decode_eq_decodeTokens, decode_eq_decodeTokens, htoks]

/-- Settles O7: the separator cuts the line, and the first token after it begins the comment. -/
theorem trailingCommentIsIgnored : Obligations.TrailingCommentIsIgnored := by
  intro c line rest sep marker hwf hsep hmarker
  obtain ⟨u, us, hus, hu⟩ := lineTokens_marker hwf hmarker rest
  rw [decode_eq_decodeTokens, decode_eq_decodeTokens, lineTokens_append_sep hwf line _ hsep, hus,
    decodeTokens_append_comment hu]

/-- Settles O8: the line has the four tokens and then those of `rest`. -/
theorem tokensAfterTheFourthAreIgnored : Obligations.TokensAfterTheFourthAreIgnored := by
  intro c t1 t2 t3 t4 lead sep1 sep2 sep3 rest b hwf htok hne hsep hb
  simp only [List.forall_mem_cons, List.not_mem_nil, false_imp_iff, implies_true, and_true] at htok hne hsep
  obtain ⟨⟨hne1, ht1⟩, ⟨hne2, ht2⟩, ⟨hne3, ht3⟩, hne4, ht4⟩ := htok
  obtain ⟨hs1, hs2, hs3⟩ := hne
  obtain ⟨hlead, hsep1, hsep2, hsep3⟩ := hsep
  have hline : ∀ m, lineTokens c (lead ++ t1 ++ sep1 ++ t2 ++ sep2 ++ t3 ++ sep3 ++ m) =
      t1 :: t2 :: t3 :: lineTokens c m := by
    intro m
    simp only [List.append_assoc, lineTokens_seps_append hwf hlead, lineTokens_append_seps hwf _ hs1 hsep1,
      lineTokens_append_seps hwf _ hs2 hsep2, lineTokens_append_seps hwf _ hs3 hsep3, lineTokens_run hne1 ht1,
      lineTokens_run hne2 ht2, lineTokens_run hne3 ht3, List.cons_append, List.nil_append]
  have hlast : ∀ m, decode c (lead ++ t1 ++ sep1 ++ t2 ++ sep2 ++ t3 ++ sep3 ++ m) =
      decodeTokens (t1 :: t2 :: t3 :: lineTokens c m) := by
    intro m
    rw [decode_eq_decodeTokens, hline]
  rw [List.append_assoc _ t4, hlast, hlast, lineTokens_append_sep hwf t4 rest hb, lineTokens_run hne4 ht4]
  exact decodeTokens_four t1 t2 t3 t4 _

/-- A transaction on an admitted line that decodes to nothing ends `Ok` and changes no slot (R47, R187). -/
theorem execute_of_decode_empty {line : Line} {s : State} (ha : Admitted s.cfg line)
    (hd : decode s.cfg line = .empty) : execute line s = .next (s.report .ok) := by
  rw [execute_eq (not_tooLong_of_admitted ha), hd]

/-- Settles O9: neither line has a token before a comment, and LINE_MAX admits the shorter with the longer. -/
theorem blankAndCommentLinesDoNothing : Obligations.BlankAndCommentLinesDoNothing := by
  intro s seps rest marker hwf hadm hseps hmarker
  have hblank : lineTokens s.cfg (seps ++ []) = [] := lineTokens_seps_append hwf hseps []
  rw [List.append_nil] at hblank
  obtain ⟨u, us, hus, hu⟩ := lineTokens_marker hwf hmarker rest
  constructor
  · refine execute_of_decode_empty (fun m hm => ?_) ?_
    · have hle := hadm m hm
      rw [List.length_append] at hle
      omega
    · rw [decode_eq_decodeTokens, hblank]
      rfl
  · refine execute_of_decode_empty hadm ?_
    rw [decode_eq_decodeTokens, lineTokens_seps_append hwf hseps, hus]
    exact decodeTokens_append_comment hu [] us

end Sys2Proof.Machine
end

