-- ==== Sys2Proof/Proofs/Encoding.lean ====
section
/-! PROOFS. Proofs/Encoding.lean: the mnemonic table selects each instruction by its own token (R52), and the
decoder and the encoder agree (R43 to R52). -/

namespace Sys2Proof.Laws.TableRow

/-- The family of Laws/PerInstr.lean, for every instruction. -/
theorem statement (i : Instr) : Statement i := by
  cases i
  exacts [ret _, nop _, ecall _, ebreak _, j _, call _, tail _, jal _, jr _, jalr _, beq _, bne _, blt _, bge _,
    bltu _, bgeu _, bgt _, ble _, bgtu _, bleu _, lb _, lh _, lw _, lbu _, lhu _, sb _, sh _, sw _, li _, lui _,
    auipc _, mv _, sextW _, neg _, negw _, seqz _, snez _, not _, sltz _, sgtz _, add _, addi _, sub _, subi _,
    xor _, xori _, or _, ori _, and _, andi _, sll _, slli _, srl _, srli _, sra _, srai _, slt _, slti _,
    sltu _, sltiu _, mul _, mulh _, mulsu _, mulu _, div _, divu _, rem _, remu _]

end Sys2Proof.Laws.TableRow

namespace Sys2Proof.Machine

/-! ### The mnemonic table -/

theorem lookup_mnemonic (i : Instr) : lookup i.mnemonic = some i.row := (Laws.TableRow.statement i).1

theorem row_build_operands (i : Instr) : i.row.build i.operands = i := (Laws.TableRow.statement i).2

/-- The tokens that select a row are those of the table (R52). -/
theorem exists_lookup_iff (mn : Token) : (∃ r, lookup mn = some r) ↔ mn ∈ mnemonicTable.map Row.token := by
  constructor
  · rintro ⟨r, hr⟩
    obtain ⟨hmem, rfl⟩ := lookup_some hr
    exact List.mem_map_of_mem hmem
  · intro hmem
    obtain ⟨r, hr, htok⟩ := List.mem_map.mp hmem
    cases hl : lookup mn with
    | none => exact absurd htok (lookup_none.mp hl r hr)
    | some r' => exact ⟨r', rfl⟩

/-- Settles O10: each instruction's row is the one at its index, which its token selects. -/
theorem mnemonicTableIsUnambiguous : Obligations.MnemonicTableIsUnambiguous := by
  refine ⟨rfl, by decide, fun i => ⟨?_, lookup_mnemonic i, row_build_operands i⟩, exists_lookup_iff⟩
  exact List.getElem?_eq_getElem i.index.isLt

/-- Settles O12, by running the decoder on each line. -/
theorem spelledOutLinesDecode : Obligations.SpelledOutLinesDecode := by
  refine ⟨?_, ?_, ?_, ?_, ?_, ?_, ?_, ?_⟩ <;> decide

/-! ### Operand tokens -/

theorem token_wf_iff (c : Config) (t : Token) :
    Token.wf c t = true ↔ (∀ b ∈ t, isTokenChar c b = true) ∧ startsComment t = false := by
  simp [Token.wf, startsComment]

theorem operands_wf_iff (c : Config) (o : Operands) :
    Operands.wf c o = true ↔
      o.gap = false ∧ Token.wf c o.op1 = true ∧ Token.wf c o.op2 = true ∧ Token.wf c o.op3 = true := by
  simp [Operands.wf, and_assoc]

/-- A record has no gap where every field after an empty one is empty (R51). -/
theorem gap_eq_false_iff (o : Operands) :
    o.gap = false ↔ (o.op1 = [] → o.op2 = []) ∧ (o.op2 = [] → o.op3 = []) := by
  simp only [Operands.gap, Bool.or_eq_false_iff, Bool.and_eq_false_iff, decide_eq_false_iff_not, not_not]
  tauto

/-- Where no operand begins a comment, stage 3 clears nothing (R50). -/
theorem stripComment_eq_self {o : Operands} (h1 : startsComment o.op1 = false) (h2 : startsComment o.op2 = false)
    (h3 : startsComment o.op3 = false) : stripComment o = o := by
  simp [stripComment, h1, h2, h3]

/-! ### Decoding what was encoded -/

/-- Every mnemonic of the table is a token a line can hold (R52). -/
theorem mnemonicTable_tokens_wf :
    ∀ r ∈ mnemonicTable, r.token ≠ [] ∧ Token.wf defaultConfig r.token = true := by
  decide

theorem startsComment_mnemonic (i : Instr) : startsComment i.mnemonic = false := by
  obtain ⟨-, hwf⟩ := mnemonicTable_tokens_wf i.row (row_mem i)
  exact ((token_wf_iff defaultConfig _).mp hwf).2

theorem lineTokens_mnemonic {c : Config} (hwf : c.wf = true) (i : Instr) :
    lineTokens c i.mnemonic = [i.mnemonic] := by
  obtain ⟨hne, htok⟩ := mnemonicTable_tokens_wf i.row (row_mem i)
  obtain ⟨hchars, -⟩ := (token_wf_iff defaultConfig _).mp htok
  exact lineTokens_run hne fun b hb => isTokenChar_of_default hwf (hchars b hb)

/-- The token an operand field puts on a line: none for an absent one (R48, R51). -/
def fieldTokens (t : Token) : List Token := if t = [] then [] else [t]

/-- The encoder's field adds its token to those of the line before it. -/
theorem lineTokens_append_encodeField {c : Config} (hwf : c.wf = true) (l : Line) {t : Token}
    (h : Token.wf c t = true) : lineTokens c (l ++ encodeField t) = lineTokens c l ++ fieldTokens t := by
  have hsep : isSeparator c chSpace = true := (isSeparator_iff c chSpace).mpr (.inr (isSpace_chSpace hwf))
  unfold encodeField fieldTokens
  split
  · rw [List.append_nil, List.append_nil]
  · rename_i hne
    rw [lineTokens_append_sep hwf l t hsep, lineTokens_run hne ((token_wf_iff c t).mp h).1]

/-- The fields of a record without a gap are where their tokens put them (R51). -/
theorem operandFields_fieldTokens {o : Operands} (h : o.gap = false) :
    operandFields (fieldTokens o.op1 ++ fieldTokens o.op2 ++ fieldTokens o.op3) = o := by
  obtain ⟨t1, t2, t3⟩ := o
  obtain ⟨h12, h23⟩ := (gap_eq_false_iff _).mp h
  by_cases h1 : t1 = []
  · obtain rfl : t2 = [] := h12 h1
    obtain rfl : t3 = [] := h23 rfl
    rw [h1]
    rfl
  · by_cases h2 : t2 = []
    · obtain rfl : t3 = [] := h23 h2
      simp [fieldTokens, operandFields, h1, h2]
    · by_cases h3 : t3 = [] <;> simp [fieldTokens, operandFields, h1, h2, h3]

/-- The tokens of an encoded line are the mnemonic and the operands that are there. -/
theorem lineTokens_encode {c : Config} (hwf : c.wf = true) {i : Instr} (hi : i.wf c = true) :
    lineTokens c (encode i) = i.mnemonic ::
      (fieldTokens i.operands.op1 ++ fieldTokens i.operands.op2 ++ fieldTokens i.operands.op3) := by
  obtain ⟨-, h1, h2, h3⟩ := (operands_wf_iff c i.operands).mp hi
  rw [encode, ← List.append_assoc, ← List.append_assoc, lineTokens_append_encodeField hwf _ h3,
    lineTokens_append_encodeField hwf _ h2, lineTokens_append_encodeField hwf _ h1, lineTokens_mnemonic hwf]
  simp only [List.append_assoc, List.cons_append, List.nil_append]

/-- Settles O4: the mnemonic selects the instruction's row, and the row builds the instruction from the
operand fields, which stage 3 leaves alone. -/
theorem decodeEncodeRoundTrip : Obligations.DecodeEncodeRoundTrip := by
  intro c i hwf hi
  obtain ⟨hgap, h1, h2, h3⟩ := (operands_wf_iff c i.operands).mp hi
  have hstrip : stripComment i.operands = i.operands :=
    stripComment_eq_self ((token_wf_iff c _).mp h1).2 ((token_wf_iff c _).mp h2).2 ((token_wf_iff c _).mp h3).2
  rw [decode_eq_decodeTokens, lineTokens_encode hwf hi]
  simp only [decodeTokens, startsComment_mnemonic, Bool.false_eq_true, if_false, lookup_mnemonic,
    operandFields_fieldTokens hgap, hstrip, row_build_operands]

/-! ### What a line can decode to -/

/-- The operand fields of a line's tokens have no gap (R51). -/
theorem operandFields_gap {ts : List Token} (h : ∀ t ∈ ts, t ≠ []) : (operandFields ts).gap = false := by
  rw [gap_eq_false_iff]
  match ts with
  | [] => exact ⟨fun _ => rfl, fun _ => rfl⟩
  | [a] => exact ⟨fun _ => rfl, fun _ => rfl⟩
  | a :: b :: ts => exact ⟨fun ha => absurd ha (h a (by simp)), fun hb => absurd hb (h b (by simp))⟩

/-- An operand field is one of the tokens, or empty (R48). -/
theorem forall_mem_getD {P : Byte → Prop} {ts : List Token} (h : ∀ t ∈ ts, ∀ b ∈ t, P b) (k : Nat) :
    ∀ b ∈ ts.getD k [], P b := by
  rw [List.getD_eq_getElem?_getD]
  cases hk : ts[k]? with
  | none => simp
  | some t => exact h t (List.mem_of_getElem? hk)

/-- Stage 3 leaves a well-formed record of a record without a gap (R50, R51). -/
theorem stripComment_wf {c : Config} {o : Operands} (hgap : o.gap = false)
    (h1 : ∀ b ∈ o.op1, isTokenChar c b = true) (h2 : ∀ b ∈ o.op2, isTokenChar c b = true)
    (h3 : ∀ b ∈ o.op3, isTokenChar c b = true) : (stripComment o).wf c = true := by
  have hnil : Token.wf c [] = true := rfl
  have hwf {t : Token} (ht : ∀ b ∈ t, isTokenChar c b = true) (hs : ¬ startsComment t = true) :
      Token.wf c t = true :=
    (token_wf_iff c t).mpr ⟨ht, Bool.not_eq_true _ ▸ hs⟩
  rw [gap_eq_false_iff] at hgap
  rw [operands_wf_iff, gap_eq_false_iff]
  unfold stripComment
  split
  · exact ⟨⟨fun _ => rfl, fun _ => rfl⟩, hnil, hnil, hnil⟩
  · rename_i hs1
    split
    · exact ⟨⟨fun _ => rfl, fun _ => rfl⟩, hwf h1 hs1, hnil, hnil⟩
    · rename_i hs2
      split
      · exact ⟨⟨hgap.1, fun _ => rfl⟩, hwf h1 hs1, hwf h2 hs2, hnil⟩
      · rename_i hs3
        exact ⟨hgap, hwf h1 hs1, hwf h2 hs2, hwf h3 hs3⟩

/-- The operands of a decoded instruction are the tokens after the first, with any comment cleared (R50, R51). -/
theorem operands_of_decode_instr {c : Config} {line : Line} {i : Instr} (h : decode c line = .instr i) :
    ∃ mn ts, lineTokens c line = mn :: ts ∧ i.operands = stripComment (operandFields ts) := by
  rw [decode_eq_decodeTokens] at h
  cases hts : lineTokens c line with
  | nil =>
    rw [hts] at h
    cases h
  | cons mn ts =>
    simp only [hts, decodeTokens] at h
    split at h
    · cases h
    · split at h
      · cases h
      · rename_i r hl
        cases h
        exact ⟨mn, ts, rfl, build_operands r (lookup_some hl).1 _⟩

/-- Settles O5: the record is the line's tokens, with any comment cleared. -/
theorem decodedInstructionIsWellFormed : Obligations.DecodedInstructionIsWellFormed := by
  intro c line i h
  obtain ⟨mn, ts, hts, hops⟩ := operands_of_decode_instr h
  have htok : ∀ t ∈ ts, t ≠ [] ∧ ∀ b ∈ t, isTokenChar c b = true :=
    fun t ht => mem_lineTokens (hts ▸ List.mem_cons_of_mem mn ht)
  have hchars := forall_mem_getD fun t ht => (htok t ht).2
  rw [Instr.wf, hops]
  exact stripComment_wf (operandFields_gap fun t ht => (htok t ht).1) (hchars 0) (hchars 1) (hchars 2)

end Sys2Proof.Machine
end

