-- ==== Sys2Proof/Proofs/OperandForms.lean ====
section
/-! PROOFS. Proofs/OperandForms.lean: which tokens are register names (R57, R58), which are immediate literals
(R61 to R63), and how the first character of op3 tells the two apart (R59). -/

namespace Sys2Proof.Machine

/-! ### Digits -/

theorem digitVal_lt {b : Byte} (h : isDigit b = true) : digitVal b < 10 := by
  simp only [isDigit, Bool.and_eq_true, decide_eq_true_eq] at h
  unfold digitVal
  omega

/-- A digit character is the one its value is written with (R44). -/
theorem decDigit_digitVal {b : Byte} (h : isDigit b = true) : BitVec.ofNat 8 (0x30 + digitVal b) = b := by
  simp only [isDigit, Bool.and_eq_true, decide_eq_true_eq] at h
  unfold digitVal
  rw [show 0x30 + (b.toNat - 0x30) = b.toNat by omega, BitVec.ofNat_toNat, BitVec.setWidth_eq]

theorem digitVal_pos {b : Byte} (h : isDigit b = true) (h0 : b ≠ chZero) : 0 < digitVal b := by
  refine Nat.pos_of_ne_zero fun hz => h0 ?_
  rw [← decDigit_digitVal h, hz]
  rfl

/-! ### Register names -/

/-- The 65 names resolve, whatever REG_LEADING_ZERO_OK: none of their numbers has a leading zero (R58). -/
theorem slotOfName_registerNames_of_leadingZero (z : Bool) : ∀ p ∈ registerNames,
    slotOfName { defaultConfig with regLeadingZeroOk := z } p.1 = some p.2 := by
  cases z <;> decide

/-- No other parameter reaches the resolution of a lower-case name (R57). -/
theorem slotOfName_registerNames (c : Config) : ∀ p ∈ registerNames, slotOfName c p.1 = some p.2 :=
  slotOfName_registerNames_of_leadingZero c.regLeadingZeroOk

/-- The six plausible names that R58 rejects: `x32`, `t7`, `s12`, `a8`, `pc`, `s0/fp`. -/
def lookAlikes : List Token :=
  [[0x78, 0x33, 0x32], [0x74, 0x37], [0x73, 0x31, 0x32], [0x61, 0x38], [0x70, 0x63], [0x73, 0x30, 0x2F, 0x66, 0x70]]

theorem slotOfName_lookAlikes_of_leadingZero (z : Bool) : ∀ t ∈ lookAlikes,
    slotOfName { defaultConfig with regLeadingZeroOk := z } t = none := by
  cases z <;> decide

theorem slotOfName_lookAlikes (c : Config) : ∀ t ∈ lookAlikes, slotOfName c t = none :=
  slotOfName_lookAlikes_of_leadingZero c.regLeadingZeroOk

/-- The token as register resolution reads it: folded to lower case unless REG_CASE_SENSITIVE (D8). -/
def caseFolded (c : Config) (t : Token) : Token := if c.regCaseSensitive then t else t.map lowerCase

/-- What register resolution does with a token that is there (R57, R184). -/
theorem reg_of_ne_nil (c : Config) (position : Nat) {t : Token} (hne : t ≠ []) :
    reg c position t = ((slotOfName c (caseFolded c t)).elim (.error (.malformedRegisterName t)) .ok) := by
  rw [reg, if_neg hne, caseFolded]
  cases slotOfName c (if c.regCaseSensitive then t else t.map lowerCase) <;> rfl

/-- A token in lower case is read as it is, whatever REG_CASE_SENSITIVE. -/
theorem caseFolded_eq_self (c : Config) {t : Token} (h : t.map lowerCase = t) : caseFolded c t = t := by
  rw [caseFolded, h, ite_self]

/-- Settles O13: the names and the look-alikes are in lower case, so they are read as they are. -/
theorem registerNamesResolveToTheirSlots : Obligations.RegisterNamesResolveToTheirSlots := by
  have hnames : ∀ p ∈ registerNames, p.1 ≠ [] ∧ p.1.map lowerCase = p.1 := by decide
  have hothers : ∀ t ∈ lookAlikes, t ≠ [] ∧ t.map lowerCase = t := by decide
  refine ⟨rfl, fun c position => ⟨fun p hp => ?_, fun t ht => ?_⟩⟩
  · obtain ⟨hne, hlower⟩ := hnames p hp
    rw [reg_of_ne_nil c position hne, caseFolded_eq_self c hlower, slotOfName_registerNames c p hp, Option.elim_some]
  · obtain ⟨hne, hlower⟩ := hothers t ht
    rw [reg_of_ne_nil c position hne, caseFolded_eq_self c hlower, slotOfName_lookAlikes c t ht, Option.elim_none]

/-- By default the number of a register suffix is its canonical decimal numeral (R57, D9). -/
theorem regNumeral_decDigits {c : Config} (hz : c.regLeadingZeroOk = false) {ds : Token} {n : Nat}
    (h : regNumeral c ds = some n) : ds = decDigits 2 n := by
  match ds with
  | [] => cases h
  | [d] =>
    simp only [regNumeral, Option.ite_none_right_eq_some, Option.some.injEq] at h
    obtain ⟨hd, rfl⟩ := h
    have hlt := digitVal_lt hd
    simp [decDigits, hlt, Nat.mod_eq_of_lt hlt, decDigit_digitVal hd]
  | [d, e] =>
    simp only [regNumeral, hz, Bool.false_or, Bool.and_eq_true, decide_eq_true_eq, Option.ite_none_right_eq_some,
      Option.some.injEq] at h
    obtain ⟨⟨⟨hd, he⟩, hne⟩, rfl⟩ := h
    have hdlt := digitVal_lt hd
    have helt := digitVal_lt he
    have hpos := digitVal_pos hd hne
    have hdiv : (10 * digitVal d + digitVal e) / 10 = digitVal d := by omega
    have hmod : (10 * digitVal d + digitVal e) % 10 = digitVal e := by omega
    have hge : ¬ 10 * digitVal d + digitVal e < 10 := by omega
    simp [decDigits, hdiv, hmod, hge, hdlt, Nat.mod_eq_of_lt hdlt, decDigit_digitVal hd, decDigit_digitVal he]
  | _ :: _ :: _ :: _ => cases h

/-- Only `x`, `t`, `s` and `a` take a number, and none above 31 (R57). -/
theorem prefixedSlot_some {p : Byte} {n k : Nat} (h : prefixedSlot p n = some k) :
    p ∈ ([0x78, 0x74, 0x73, 0x61] : List Byte) ∧ n < 32 := by
  unfold prefixedSlot at h
  split_ifs at h <;> simp_all <;> omega

/-- The names of the four letters are in the table of R58. -/
theorem mem_registerNames_of_prefixedSlot {p : Byte} {n k : Nat} (h : prefixedSlot p n = some k) :
    (p :: decDigits 2 n, k) ∈ registerNames := by
  have hall : ∀ p ∈ ([0x78, 0x74, 0x73, 0x61] : List Byte), ∀ n, n < 32 → ∀ k ∈ prefixedSlot p n,
      (p :: decDigits 2 n, k) ∈ registerNames := by decide
  obtain ⟨hp, hn⟩ := prefixedSlot_some h
  exact hall p hp n hn k h

/-- What a token that names a slot is: one of the six words, or a letter and its number (R57). -/
theorem slotOfName_some {c : Config} {t : Token} {n : Nat} (h : slotOfName c t = some n) :
    (t, n) ∈ wordNames ∨ ∃ p ds k, t = p :: ds ∧ regNumeral c ds = some k ∧ prefixedSlot p k = some n := by
  unfold slotOfName at h
  split at h
  · rename_i m hm
    obtain ⟨l₁, l₂, hl, -⟩ := List.lookup_eq_some_iff.mp hm
    cases h
    exact .inl (by simp [hl])
  · split at h
    · cases h
    · rename_i p ds _
      obtain ⟨k, hk, hslot⟩ := Option.bind_eq_some_iff.mp h
      exact .inr ⟨p, ds, k, rfl, hk, hslot⟩

/-- By default nothing but the 65 names names a slot (R57, D9). -/
theorem mem_registerNames_of_slotOfName {c : Config} (hz : c.regLeadingZeroOk = false) {t : Token} {n : Nat}
    (h : slotOfName c t = some n) : (t, n) ∈ registerNames := by
  rcases slotOfName_some h with hw | ⟨p, ds, k, rfl, hk, hslot⟩
  · have hall : ∀ p ∈ wordNames, p ∈ registerNames := by decide
    exact hall _ hw
  · rw [regNumeral_decDigits hz hk]
    exact mem_registerNames_of_prefixedSlot hslot

/-- Settles O14: by whether the token is there, and whether it names a slot. -/
theorem nothingElseIsARegisterName : Obligations.NothingElseIsARegisterName := by
  intro c position t hcase hz
  by_cases hne : t = []
  · subst hne
    exact .inr (.inl ⟨rfl, rfl⟩)
  · have hreg := reg_of_ne_nil c position hne
    rw [caseFolded, if_pos hcase] at hreg
    cases hs : slotOfName c t with
    | some n =>
      rw [hs, Option.elim_some] at hreg
      exact .inl ⟨n, hreg, mem_registerNames_of_slotOfName hz hs⟩
    | none =>
      rw [hs, Option.elim_none] at hreg
      refine .inr (.inr ⟨hne, fun n hmem => ?_, hreg⟩)
      exact absurd (hs.symm.trans (slotOfName_registerNames c _ hmem)) (by simp)

/-! ### Immediate literals -/

/-- Digits that do not begin with `0` are written back from the positive number they denote (R61). -/
theorem decDigits_digitsVal {t : Token} (hne : t ≠ []) (hall : ∀ b ∈ t, isDigit b = true)
    (hhead : t.head? ≠ some chZero) :
    0 < digitsVal t ∧ ∀ f, digitsVal t < 10 ^ f → decDigits f (digitsVal t) = t := by
  induction t using List.reverseRecOn with
  | nil => exact absurd rfl hne
  | append_singleton ds d ih =>
    have hd : isDigit d = true := hall d (by simp)
    have hlt := digitVal_lt hd
    have hd' := decDigit_digitVal hd
    have hval : digitsVal (ds ++ [d]) = 10 * digitsVal ds + digitVal d := by
      rw [← hd', digitsVal_append_digit ds hlt, hd']
    rw [hval]
    by_cases hds : ds = []
    · subst hds
      have hpos : 0 < digitVal d := digitVal_pos hd (by simpa using hhead)
      refine ⟨by omega, fun f hf => ?_⟩
      cases f with
      | zero => omega
      | succ f => simp [decDigits, digitsVal, hlt, Nat.mod_eq_of_lt hlt, hd']
    · obtain ⟨hpos, hback⟩ := ih hds (fun b hb => hall b (List.mem_append_left _ hb))
        (by rwa [List.head?_append_of_ne_nil _ hds] at hhead)
      refine ⟨by omega, fun f hf => ?_⟩
      cases f with
      | zero => omega
      | succ f =>
        have hge : ¬ 10 * digitsVal ds + digitVal d < 10 := by omega
        have hdiv : (10 * digitsVal ds + digitVal d) / 10 = digitsVal ds := by omega
        have hmod : (10 * digitsVal ds + digitVal d) % 10 = digitVal d := by omega
        rw [decDigits, if_neg hge, hdiv, hmod, hd', hback f (by rw [Nat.pow_succ] at hf; omega)]

/-- A canonical numeral of at most 10 digits is the decimal digits of the number it denotes (R61). -/
theorem decDigits_of_canonicalNumeral {t : Token} {m : Nat} (h : canonicalNumeral t = some m) (hm : m < 10 ^ 10) :
    t = decDigits 10 m := by
  cases t with
  | nil => cases h
  | cons d ds =>
    simp only [canonicalNumeral, Option.ite_none_right_eq_some, Option.some.injEq, Bool.and_eq_true,
      Bool.or_eq_true, List.all_eq_true, decide_eq_true_eq] at h
    obtain ⟨⟨hall, hcanon⟩, rfl⟩ := h
    by_cases hd : d = chZero
    · obtain rfl : ds = [] := hcanon.resolve_left (by simp [hd])
      subst hd
      decide
    · obtain ⟨-, hback⟩ := decDigits_digitsVal (List.cons_ne_nil d ds) hall (by simpa using hd)
      exact (hback 10 hm).symm

/-- A literal is a canonical numeral, or one other than `0` after a minus sign unless IMM_NEG_ZERO_OK (R61, D11). -/
theorem literalValue_some {c : Config} {t : Token} {n : Int} (h : literalValue c t = some n) :
    (∃ m : Nat, canonicalNumeral t = some m ∧ n = m) ∨
    (∃ ds, ∃ m : Nat, t = chMinus :: ds ∧ canonicalNumeral ds = some m ∧ n = -m ∧
      (c.immNegZeroOk = false → m ≠ 0)) := by
  cases t with
  | nil => cases h
  | cons b ds =>
    simp only [literalValue] at h
    split at h
    · rename_i hb
      subst hb
      split at h
      · rename_i m hm
        simp only [Option.ite_none_left_eq_some, Option.some.injEq, Bool.and_eq_true, decide_eq_true_eq,
          Bool.not_eq_true'] at h
        obtain ⟨hz, rfl⟩ := h
        exact .inr ⟨ds, m, rfl, hm, rfl, fun hok h0 => hz ⟨h0, hok⟩⟩
      · cases h
    · split at h
      · rename_i m hm
        cases h
        exact .inl ⟨m, hm, rfl⟩
      · cases h

/-- By default a literal of at most 10 digits is the decimal text of the integer it denotes (R61, D11). -/
theorem eq_decimalText_of_literalValue {c : Config} (hz : c.immNegZeroOk = false) {t : Token} {n : Int}
    (h : literalValue c t = some n) (hn : n.natAbs < 10 ^ 10) : t = decimalText n := by
  rcases literalValue_some h with ⟨m, hm, rfl⟩ | ⟨ds, m, rfl, hm, rfl, hne⟩
  · rw [decimalText, if_neg (by omega)]
    exact decDigits_of_canonicalNumeral hm hn
  · have hpos := hne hz
    rw [decimalText, if_pos (by omega), Int.natAbs_neg, Int.natAbs_natCast]
    rw [Int.natAbs_neg, Int.natAbs_natCast] at hn
    rw [← decDigits_of_canonicalNumeral hm hn]

/-- Immediate evaluation accepts a literal in range and nothing else (R61, R62). -/
theorem immval_ok_iff {c : Config} {t : Token} {n : Int} :
    immval c t = .ok n ↔ literalValue c t = some n ∧ -2048 ≤ n ∧ n ≤ 2047 := by
  unfold immval immMin immMax
  cases literalValue c t with
  | none => simp
  | some m =>
    dsimp only
    split
    · simp only [Except.ok.injEq, Option.some.injEq]
      constructor
      · rintro rfl
        exact ⟨rfl, by assumption⟩
      · exact And.left
    · simp only [reduceCtorEq, false_iff, Option.some.injEq]
      rintro ⟨rfl, hrange⟩
      contradiction

/-- Settles O15: in range, the literals of an integer are its decimal text alone. -/
theorem immediatesAreCanonicalDecimals : Obligations.ImmediatesAreCanonicalDecimals := by
  intro c t hz
  have hok : ∀ n : Int, immval c t = .ok n ↔ (-2048 ≤ n ∧ n ≤ 2047 ∧ t = decimalText n) := by
    intro n
    rw [immval_ok_iff]
    constructor
    · rintro ⟨hlit, hmin, hmax⟩
      exact ⟨hmin, hmax, eq_decimalText_of_literalValue hz hlit (by omega)⟩
    · rintro ⟨hmin, hmax, rfl⟩
      exact ⟨literalValue_decimalText c (by omega), hmin, hmax⟩
  refine ⟨hok, fun hno => ?_⟩
  cases h : immval c t with
  | error e => rw [immval_error h]
  | ok n =>
    obtain ⟨hmin, hmax, ht⟩ := (hok n).mp h
    exact absurd ht (hno n hmin hmax)

/-- The signed view of `w32` gives back an integer that fits (R69). -/
theorem sval_w32 {n : Int} (hmin : -2 ^ 31 ≤ n) (hmax : n < 2 ^ 31) : sval (w32 n) = n :=
  BitVec.toInt_ofInt_eq_self (by decide) hmin hmax

/-- Settles O16: the signed widening fits a word; the pattern of 16 bits is the immediate modulo 65536. -/
theorem immediateWidening : Obligations.ImmediateWidening := by
  intro c imm hw hmin hmax
  refine ⟨sval_w32 (by omega) (by omega), ?_⟩
  rw [widenSltu, hw, uval, BitVec.toNat_setWidth, BitVec.toNat_ofInt]
  split <;> omega

/-! ### The form of an operand -/

/-- A token has immediate form by its first character (R59). -/
theorem startsImmediate_iff (t : Token) : startsImmediate t = true ↔
    ∃ b rest, t = b :: rest ∧ ((0x30 ≤ b.toNat ∧ b.toNat ≤ 0x39) ∨ b = 0x2D) := by
  rw [show (0x2D : Byte) = chMinus from rfl]
  cases t with
  | nil => simp [startsImmediate]
  | cons b rest => simp [startsImmediate, isDigit]

/-- A canonical numeral has immediate form: it begins with a digit (R59, R61). -/
theorem startsImmediate_of_canonicalNumeral {t : Token} {m : Nat} (h : canonicalNumeral t = some m) :
    startsImmediate t = true := by
  cases t with
  | nil => cases h
  | cons d ds =>
    simp only [canonicalNumeral, Option.ite_none_right_eq_some, Bool.and_eq_true, List.all_cons] at h
    obtain ⟨⟨⟨hd, -⟩, -⟩, -⟩ := h
    simp [startsImmediate, hd]

/-- A literal has immediate form (R59, R61). -/
theorem startsImmediate_of_literalValue {c : Config} {t : Token} {n : Int} (h : literalValue c t = some n) :
    startsImmediate t = true := by
  rcases literalValue_some h with ⟨m, hm, -⟩ | ⟨ds, m, rfl, -, -, -⟩
  · exact startsImmediate_of_canonicalNumeral hm
  · simp [startsImmediate]

/-- A name of a slot begins with a lower-case letter (R57). -/
theorem head_ge_of_slotOfName {c : Config} {b : Byte} {rest : Token} {n : Nat}
    (h : slotOfName c (b :: rest) = some n) : 0x61 ≤ b.toNat := by
  rcases slotOfName_some h with hw | ⟨p, ds, k, heq, -, hslot⟩
  · have hall : ∀ p ∈ wordNames, ∀ b ∈ p.1.head?, 0x61 ≤ b.toNat := by decide
    exact hall _ hw b rfl
  · obtain ⟨rfl, rfl⟩ := List.cons.inj heq
    have hall : ∀ p ∈ ([0x78, 0x74, 0x73, 0x61] : List Byte), 0x61 ≤ p.toNat := by decide
    exact hall _ (prefixedSlot_some hslot).1

/-- Folding to lower case leaves a digit and a minus sign alone (D8). -/
theorem caseFolded_cons_of_lt (c : Config) {b : Byte} (h : b.toNat < 0x41) (rest : Token) :
    caseFolded c (b :: rest) = b :: caseFolded c rest := by
  have hb : lowerCase b = b := by
    simp only [lowerCase, Bool.and_eq_true, decide_eq_true_eq]
    rw [if_neg (by omega)]
  unfold caseFolded
  split
  · rfl
  · rw [List.map_cons, hb]

/-- A token of immediate form names no register, in any position and under any parameters (R59). -/
theorem reg_of_startsImmediate (c : Config) (position : Nat) {t : Token} (h : startsImmediate t = true) :
    reg c position t = .error (.malformedRegisterName t) := by
  obtain ⟨b, rest, rfl, hb⟩ := (startsImmediate_iff t).mp h
  have hlt : b.toNat < 0x41 := by
    rcases hb with ⟨-, hle⟩ | rfl
    · omega
    · decide
  rw [reg_of_ne_nil c position (List.cons_ne_nil b rest), caseFolded_cons_of_lt c hlt]
  cases hs : slotOfName c (b :: caseFolded c rest) with
  | none => rfl
  | some n =>
    have hge := head_ge_of_slotOfName hs
    omega

/-- The second source is the literal, widened, where the token has immediate form (R59, R63). -/
theorem secondSource_immediate {s : State} {widen : Int → Word} {t : Token} (h : startsImmediate t = true) :
    secondSource s widen t = (immval s.cfg t).map widen := by
  rw [secondSource, if_pos h]
  cases immval s.cfg t <;> rfl

/-- The second source is the word of the register, where it has not (R59). -/
theorem secondSource_register {s : State} {widen : Int → Word} {t : Token} (h : startsImmediate t = false) :
    secondSource s widen t = (reg s.cfg 3 t).map s.x := by
  rw [secondSource, h, if_neg Bool.false_ne_true]
  cases hr : reg s.cfg 3 t with
  | error e => rfl
  | ok n => exact rfRead_slot s.rf (reg_lt hr)

/-- Settles O56: the second source is the one resolution or the other, by the first character. -/
theorem firstCharacterDecidesTheOperandForm : Obligations.FirstCharacterDecidesTheOperandForm := by
  refine ⟨startsImmediate_iff, fun s widen t ht => ⟨fun imm h => ?_, fun e h => ?_, fun position => ?_⟩,
    fun s widen t ht => ⟨fun rs2 h => ?_, fun e h => ?_⟩, fun n hmin hmax => ?_, by decide⟩
  · rw [secondSource_immediate ht, h]
    rfl
  · rw [secondSource_immediate ht, h]
    rfl
  · exact reg_of_startsImmediate s.cfg position ht
  · rw [secondSource_register ht, h]
    rfl
  · rw [secondSource_register ht, h]
    rfl
  · exact startsImmediate_of_literalValue (literalValue_decimalText defaultConfig (by omega))

end Sys2Proof.Machine
end

