-- ==== Sys2Proof/Proofs/Acceptance.lean ====
section
/-! PROOFS. Proofs/Acceptance.lean: when an instruction ends `Ok` (R54, R83, R84), the operand counts it must
have (R53), and a step on a line that is no instruction (R47, R49, R64). -/

namespace Sys2Proof.Machine

/-! ### Which instructions end Ok -/

theorem succeeds_report_ok (s : State) : Succeeds (.next (s.report .ok)) := ⟨_, rfl, rfl⟩

theorem succeeds_retire (s : State) (rd : Nat) (v : Word) : Succeeds (.next (s.retire rd v)) := ⟨_, rfl, rfl⟩

theorem not_succeeds_report_err (s : State) (e : DecodeError) : ¬ Succeeds (.next (s.report (.err e))) := by
  rintro ⟨_, ⟨⟩, ⟨⟩⟩

theorem accepted_noop_iff {s : State} {i : Instr} (hn : isNoop i = true) : Accepted s i ↔ ArityOk s.cfg i := by
  unfold isNoop at hn
  unfold Accepted
  split at hn <;> simp_all

theorem accepted_a3s_iff {s : State} {i : Instr} (hf : i.row.format = .a3s) :
    Accepted s i ↔ ArityOk s.cfg i ∧ ∃ rd a b, SourcesA3S s (widenOf s.cfg i) i.operands rd a b := by
  rw [Accepted, hf]

theorem accepted_a3r_iff {s : State} {i : Instr} (hf : i.row.format = .a3r) :
    Accepted s i ↔ ArityOk s.cfg i ∧ ∃ rd a b, SourcesA3R s i.operands rd a b := by
  rw [Accepted, hf]

/-- Settles O41: in each of the things an instruction can do, it is accepted exactly where it ends `Ok`. -/
theorem succeedsExactlyWhenAccepted : Obligations.SucceedsExactlyWhenAccepted := by
  intro i s
  rcases exec_cases i s with ⟨ha, hx⟩ | ⟨ha, hn, hx⟩ | ⟨ha, -, hf, ⟨e, hop, hx⟩ | ⟨rd, a, b, v, hs, hx⟩⟩ |
      ⟨ha, -, hf, ⟨e, hop, hx⟩ | ⟨rd, a, b, v, hs, hx⟩⟩ <;>
    rw [hx]
  · exact iff_of_false (not_succeeds_report_err s _) fun h => ha h.1
  · exact iff_of_true (succeeds_report_ok s) ((accepted_noop_iff hn).mpr ha)
  · refine iff_of_false (not_succeeds_report_err s e) fun h => ?_
    obtain ⟨-, rd, a, b, hs⟩ := (accepted_a3s_iff hf).mp h
    cases hop.symm.trans (operandsA3S_ok_iff.mpr hs)
  · exact iff_of_true (succeeds_retire s rd v) ((accepted_a3s_iff hf).mpr ⟨ha, rd, a, b, hs⟩)
  · refine iff_of_false (not_succeeds_report_err s e) fun h => ?_
    obtain ⟨-, rd, a, b, hs⟩ := (accepted_a3r_iff hf).mp h
    cases hop.symm.trans (operandsA3R_ok_iff.mpr hs)
  · exact iff_of_true (succeeds_retire s rd v) ((accepted_a3r_iff hf).mpr ⟨ha, rd, a, b, hs⟩)

/-! ### Operand counts -/

/-- Settles O32: a NOOP count is an entry of ARITY_NOOP, and every EXEC mnemonic takes three operands. -/
theorem defaultOperandCounts : Obligations.DefaultOperandCounts := by
  intro o
  refine ⟨?none, ?one, ?three, ?two, ?exec⟩
  case exec =>
    intro mk hmk c
    fin_cases hmk <;> exact arity_exec _ c rfl
  all_goals
    intro mk hmk
    fin_cases hmk <;> rfl

/-! ### Lines that are no instruction -/

/-- An admitted line whose mnemonic is not in the table ends in that error (R64). -/
theorem execute_of_decode_illegal {line : Line} {s : State} {e : DecodeError} (ha : Admitted s.cfg line)
    (hd : decode s.cfg line = .illegal e) : execute line s = .next (s.report (.err e)) := by
  rw [execute_eq (not_tooLong_of_admitted ha), hd]

/-- Settles O43: the step is a transaction on the line, which decodes as it did before it was taken. -/
theorem stepOnALineThatIsNoInstruction : Obligations.StepOnALineThatIsNoInstruction := by
  intro s line rest hadm hin
  rw [step_of_input_cons hin]
  exact ⟨fun hd => execute_of_decode_empty (s := s.withInput rest) hadm hd,
    fun e hd => execute_of_decode_illegal (s := s.withInput rest) hadm hd⟩

end Sys2Proof.Machine
end

