-- ==== Sys2Proof/Proofs/LowWord.lean ====
section
/-! PROOFS. Proofs/LowWord.lean: addition, subtraction, left shift and the low word of a product are those of
32-bit machine arithmetic, in either view (R69, R90). -/

namespace Sys2Proof.Machine

theorem fAdd_eq_add (a b : Word) : fAdd a b = a + b := by rw [fAdd, w32_add, w32_uval, w32_uval]

theorem fSub_eq_sub (a b : Word) : fSub a b = a - b := by rw [fSub, w32_sub, w32_uval, w32_uval]

theorem fMul_eq_mul (a b : Word) : fMul a b = a * b := by rw [fMul, w32_mul, w32_sval, w32_sval]

theorem fMulu_eq_mul (a b : Word) : fMulu a b = a * b := by rw [fMulu, w32_mul, w32_uval, w32_uval]

/-- Handler MULU is handler MUL: the low word does not depend on the view (R90, R173). -/
theorem fMul_eq_fMulu : fMul = fMulu := by
  funext a b
  rw [fMul_eq_mul, fMulu_eq_mul]

/-- Settles O26: truncation to a word respects sums, differences and products, and undoes both views. -/
theorem lowResultsDoNotDependOnTheView : Obligations.LowResultsDoNotDependOnTheView := by
  intro c a b
  refine ⟨⟨fAdd_eq_add a b, ?_⟩, ⟨fSub_eq_sub a b, ?_⟩, ⟨fMul_eq_mul a b, fMulu_eq_mul a b⟩, ?_⟩
  · rw [fAdd_eq_add, w32_add, w32_sval, w32_sval]
  · rw [fSub_eq_sub, w32_sub, w32_sval, w32_sval]
  · rw [fSll, shiftAmount, w32_mul, w32_mul, w32_uval, w32_sval]

end Sys2Proof.Machine
end

