-- ==== Sys2Proof/Proofs/ExecCycle.lean ====
section
/-! PROOFS. Proofs/ExecCycle.lean: the cycle of one instruction: the count, the operands in their order, the
reads, the one write (R54, R83 to R89). -/

namespace Sys2Proof.Machine

/-! ### The count -/

/-- An EXEC mnemonic takes three operands without a gap (R53, R54). -/
theorem arityOk_exec_iff {c : Config} {i : Instr} (hn : isNoop i = false) :
    ArityOk c i ↔ i.operands.gap = false ∧ i.operands.count = 3 := by
  rw [ArityOk, arity_exec i c hn]

/-- Every instruction checks its count first, and names itself where it fails (R54). -/
theorem exec_of_not_arityOk {i : Instr} {s : State} (h : ¬ ArityOk s.cfg i) :
    exec i s = .next (s.report (.err (.arityError i.mnemonic))) := by
  rcases exec_cases i s with ⟨-, hx⟩ | ⟨ha, -⟩ | ⟨ha, -⟩ | ⟨ha, -⟩
  · exact hx
  all_goals exact absurd ha h

/-- A NOOP instruction with its count ends `Ok` and changes nothing else (R83). -/
theorem exec_noop {i : Instr} {s : State} (hn : isNoop i = true) (ha : ArityOk s.cfg i) :
    exec i s = .next (s.report .ok) := by
  rcases exec_cases i s with ⟨hna, -⟩ | ⟨-, -, hx⟩ | ⟨-, hn', -⟩ | ⟨-, hn', -⟩
  · exact absurd ha hna
  · exact hx
  all_goals cases hn.symm.trans hn'

/-- Settles O31: each of the 40 is of class NOOP. -/
theorem noopMnemonicsSucceedAndDoNothing : Obligations.NoopMnemonicsSucceedAndDoNothing := by
  intro mk hmk s o hgap hcount
  fin_cases hmk <;> exact exec_noop rfl ⟨hgap, hcount⟩

/-! ### The operands, in their order -/

theorem operandsA3S_error_op1 {s : State} {widen : Int → Word} {o : Operands} {e : DecodeError}
    (h1 : reg s.cfg 1 o.op1 = .error e) : operandsA3S s widen o = .error e := by
  rw [operandsA3S, h1]
  rfl

theorem operandsA3S_error_op2 {s : State} {widen : Int → Word} {o : Operands} {rd : Nat} {e : DecodeError}
    (h1 : reg s.cfg 1 o.op1 = .ok rd) (h2 : reg s.cfg 2 o.op2 = .error e) :
    operandsA3S s widen o = .error e := by
  rw [operandsA3S, h1, h2]
  rfl

theorem operandsA3S_error_op3 {s : State} {widen : Int → Word} {o : Operands} {rd rs1 : Nat} {e : DecodeError}
    (h1 : reg s.cfg 1 o.op1 = .ok rd) (h2 : reg s.cfg 2 o.op2 = .ok rs1)
    (h3 : secondSource s widen o.op3 = .error e) : operandsA3S s widen o = .error e := by
  rw [operandsA3S, h1, h2, h3]
  rfl

theorem operandsA3R_error_op1 {s : State} {o : Operands} {e : DecodeError}
    (h1 : reg s.cfg 1 o.op1 = .error e) : operandsA3R s o = .error e := by
  rw [operandsA3R, h1]
  rfl

theorem operandsA3R_error_op2 {s : State} {o : Operands} {rd : Nat} {e : DecodeError}
    (h1 : reg s.cfg 1 o.op1 = .ok rd) (h2 : reg s.cfg 2 o.op2 = .error e) : operandsA3R s o = .error e := by
  rw [operandsA3R, h1, h2]
  rfl

theorem operandsA3R_error_op3 {s : State} {o : Operands} {rd rs1 : Nat} {e : DecodeError}
    (h1 : reg s.cfg 1 o.op1 = .ok rd) (h2 : reg s.cfg 2 o.op2 = .ok rs1)
    (h3 : reg s.cfg 3 o.op3 = .error e) : operandsA3R s o = .error e := by
  rw [operandsA3R, h1, h2, h3]
  rfl

/-- Once the count has passed, an EXEC instruction ends in the error of its operands (R84). -/
theorem exec_of_operands_error {i : Instr} {s : State} {e : DecodeError} (hn : isNoop i = false)
    (ha : ArityOk s.cfg i)
    (hS : i.row.format = .a3s → operandsA3S s (widenOf s.cfg i) i.operands = .error e)
    (hR : i.row.format = .a3r → operandsA3R s i.operands = .error e) :
    exec i s = .next (s.report (.err e)) := by
  rcases exec_cases i s with ⟨hna, -⟩ | ⟨-, hn', -⟩ | ⟨-, -, hf, ⟨e', hop, hx⟩ | ⟨_, _, _, _, hs, -⟩⟩ |
      ⟨-, -, hf, ⟨e', hop, hx⟩ | ⟨_, _, _, _, hs, -⟩⟩
  · exact absurd ha hna
  · cases hn.symm.trans hn'
  · cases hop.symm.trans (hS hf)
    exact hx
  · cases (operandsA3S_ok_iff.mpr hs).symm.trans (hS hf)
  · cases hop.symm.trans (hR hf)
    exact hx
  · cases (operandsA3R_ok_iff.mpr hs).symm.trans (hR hf)

/-- Settles O36: in either format, resolution of the operands stops at the first that fails. -/
theorem firstBadOperandIsReported : Obligations.FirstBadOperandIsReported := by
  intro i s hn hgap hcount
  have ha : ArityOk s.cfg i := (arityOk_exec_iff hn).mpr ⟨hgap, hcount⟩
  refine ⟨?op1, ?op2, ?immediate, ?register⟩
  case op1 =>
    intro e h1
    exact exec_of_operands_error hn ha (fun _ => operandsA3S_error_op1 h1) fun _ => operandsA3R_error_op1 h1
  case op2 =>
    intro rd e h1 h2
    exact exec_of_operands_error hn ha (fun _ => operandsA3S_error_op2 h1 h2)
      fun _ => operandsA3R_error_op2 h1 h2
  case immediate =>
    intro rd rs1 e h1 h2 hf hs h3
    refine exec_of_operands_error hn ha (fun _ => operandsA3S_error_op3 h1 h2 ?_) fun hf' => ?_
    · rw [secondSource_immediate hs, h3]
      rfl
    · cases hf.symm.trans hf'
  case register =>
    intro rd rs1 e h1 h2 hs h3
    refine exec_of_operands_error hn ha (fun hf => operandsA3S_error_op3 h1 h2 ?_)
      fun _ => operandsA3R_error_op3 h1 h2 h3
    rw [secondSource_register (hs hf), h3]
    rfl

/-! ### The one write -/

/-- An instruction leaves the Register File alone, or it is of class EXEC and retires into the slot op1 names
(R83, R87). -/
theorem exec_rf_cases {i : Instr} {s t : State} (h : exec i s = .next t) :
    t.rf = s.rf ∨
    (isNoop i = false ∧ ∃ rd v, reg s.cfg 1 i.operands.op1 = .ok rd ∧ t = s.retire rd v) := by
  rcases exec_cases i s with ⟨-, hx⟩ | ⟨-, -, hx⟩ | ⟨-, hn, -, ⟨e, -, hx⟩ | ⟨rd, a, b, v, hs, hx⟩⟩ |
      ⟨-, hn, -, ⟨e, -, hx⟩ | ⟨rd, a, b, v, hs, hx⟩⟩ <;>
    cases hx.symm.trans h
  · exact .inl rfl
  · exact .inl rfl
  · exact .inl rfl
  · exact .inr ⟨hn, rd, v, hs.1, rfl⟩
  · exact .inl rfl
  · exact .inr ⟨hn, rd, v, hs.1, rfl⟩

theorem exec_endsFrom {i : Instr} {s t : State} (h : exec i s = .next t) : EndsFrom s t := by
  obtain ⟨u, hu, hends⟩ := exec_ends i s
  cases hu.symm.trans h
  exact hends

/-- Settles O40: a write changes no read of another slot. -/
theorem onlyTheDestinationSlotChanges : Obligations.OnlyTheDestinationSlotChanges := by
  intro i s t h
  refine ⟨(exec_endsFrom h).cfg, (exec_endsFrom h).input, ?noop, ?exec⟩
  case noop =>
    intro hnoop
    rcases exec_rf_cases h with hrf | ⟨hn, -⟩
    · exact hrf
    · cases hn.symm.trans hnoop
  case exec =>
    intro _
    rcases exec_rf_cases h with hrf | ⟨-, rd, v, hrd, rfl⟩
    · exact .inl hrf
    · exact .inr ⟨rfl, rd, reg_lt hrd, hrd, fun j hj => rfRead_setSlot_other s.rf v hj⟩

/-! ### The mnemonics of a pair -/

/-- Past stage 6 an A3S instruction is its operands, its widening and its handler (R89). -/
theorem execA3S_congr {i j : Instr} {widen : Int → Word} {f : Word → Word → Word} {s : State}
    (hi : ArityOk s.cfg i) (hj : ArityOk s.cfg j) (ho : i.operands = j.operands) :
    execA3S i widen f s = execA3S j widen f s := by
  rw [execA3S, execA3S, validateArity_ok hi, validateArity_ok hj, ho]

/-- Past stage 6 an A3R instruction is its operands and its handler (R89). -/
theorem execA3R_congr {i j : Instr} {f : Word → Word → Word} {s : State}
    (hi : ArityOk s.cfg i) (hj : ArityOk s.cfg j) (ho : i.operands = j.operands) :
    execA3R i f s = execA3R j f s := by
  rw [execA3R, execA3R, validateArity_ok hi, validateArity_ok hj, ho]

/-- Two EXEC instructions on the same operands that agree past stage 6 behave alike but for the name in an
ArityError (R54, R89). -/
theorem exec_pair {i j : Instr} {s : State} {o : Operands} (hi : isNoop i = false) (hj : isNoop j = false)
    (hio : i.operands = o) (hjo : j.operands = o)
    (h : ArityOk s.cfg i → ArityOk s.cfg j → exec i s = exec j s) :
    ((o.gap = false ∧ o.count = 3) → exec i s = exec j s) ∧
    (¬ (o.gap = false ∧ o.count = 3) →
      exec i s = .next (s.report (.err (.arityError i.mnemonic))) ∧
      exec j s = .next (s.report (.err (.arityError j.mnemonic)))) := by
  have hai : ArityOk s.cfg i ↔ o.gap = false ∧ o.count = 3 := hio ▸ arityOk_exec_iff hi
  have haj : ArityOk s.cfg j ↔ o.gap = false ∧ o.count = 3 := hjo ▸ arityOk_exec_iff hj
  refine ⟨fun hc => h (hai.mpr hc) (haj.mpr hc), fun hc => ⟨?_, ?_⟩⟩
  · exact exec_of_not_arityOk fun ha => hc (hai.mp ha)
  · exact exec_of_not_arityOk fun ha => hc (haj.mp ha)

/-- `mulu` behaves as `mul` past stage 6 (R173). -/
theorem exec_mul_eq_exec_mulu {s : State} {o : Operands} (hi : ArityOk s.cfg (.mul o))
    (hj : ArityOk s.cfg (.mulu o)) : exec (.mul o) s = exec (.mulu o) s := by
  calc exec (.mul o) s = execA3R (.mulu o) fMul s := execA3R_congr hi hj rfl
    _ = execA3R (.mulu o) fMulu s := by rw [fMul_eq_fMulu]
    _ = exec (.mulu o) s := rfl

/-- Settles O33: the two mnemonics of each A3S pair have one widening and one handler; the last pair, `mul` and
`mulu`, has two handlers that are one function. -/
theorem pairsShareOneHandler : Obligations.PairsShareOneHandler := by
  intro p hp s o
  fin_cases hp <;> refine exec_pair rfl rfl rfl rfl ?_
  on_goal 11 => exact exec_mul_eq_exec_mulu
  all_goals exact fun hi hj => execA3S_congr hi hj rfl

/-! ### One register in all three places -/

/-- The position only tells which operand an error names (R184). -/
theorem reg_ok_position {c : Config} {p : Nat} {t : Token} {r : Nat} (h : reg c p t = .ok r) (q : Nat) :
    reg c q t = .ok r := by
  have hne := reg_ne_nil h
  rw [reg_of_ne_nil c p hne] at h
  rw [reg_of_ne_nil c q hne, h]

/-- A register name has not immediate form (R59). -/
theorem startsImmediate_of_reg {c : Config} {p : Nat} {t : Token} {r : Nat} (h : reg c p t = .ok r) :
    startsImmediate t = false := by
  by_contra hs
  rw [reg_of_startsImmediate c p (Bool.not_eq_false _ ▸ hs)] at h
  cases h

theorem SourcesA3S.arityOk {s : State} {widen : Int → Word} {i : Instr} {rd : Nat} {a b : Word}
    (h : SourcesA3S s widen i.operands rd a b) (hn : isNoop i = false) : ArityOk s.cfg i :=
  (arityOk_exec_iff hn).mpr h.count

theorem SourcesA3R.arityOk {s : State} {i : Instr} {rd : Nat} {a b : Word}
    (h : SourcesA3R s i.operands rd a b) (hn : isNoop i = false) : ArityOk s.cfg i :=
  (arityOk_exec_iff hn).mpr h.count

/-- One register in all three places is the destination and both sources (R88). -/
theorem sourcesA3S_same {s : State} {t : Token} {r : Nat} (widen : Int → Word) (h : reg s.cfg 1 t = .ok r) :
    SourcesA3S s widen ⟨t, t, t⟩ r (s.x r) (s.x r) :=
  ⟨h, ⟨r, reg_ok_position h 2, rfl⟩, .inr ⟨startsImmediate_of_reg h, r, reg_ok_position h 3, rfl⟩⟩

theorem sourcesA3R_same {s : State} {t : Token} {r : Nat} (h : reg s.cfg 1 t = .ok r) :
    SourcesA3R s ⟨t, t, t⟩ r (s.x r) (s.x r) :=
  ⟨h, ⟨r, reg_ok_position h 2, rfl⟩, r, reg_ok_position h 3, rfl⟩

theorem fAdd_self (a : Word) : fAdd a a = 2 * a := (fAdd_eq_add a a).trans BitVec.two_mul.symm

theorem fSub_self (a : Word) : fSub a a = 0 := (fSub_eq_sub a a).trans (BitVec.sub_self a)

theorem fXor_self (a : Word) : fXor a a = 0 := BitVec.xor_self

/-- A word divided by itself is 1, or all ones where it is 0 (R175). -/
theorem fDivu_self (a : Word) : fDivu a a = if a = 0 then 0xFFFFFFFF else 1 := by
  unfold fDivu
  split
  · rfl
  · rename_i ha
    have hne : uval a ≠ 0 := fun h => ha (by rw [← w32_uval a, h]; rfl)
    rw [Int.fdiv_self hne]
    rfl

/-- Settles O34: both sources are the old word, so each result is its handler on that word twice. -/
theorem sourcesAreReadBeforeTheWrite : Obligations.SourcesAreReadBeforeTheWrite := by
  intro s t r h
  have hS := sourcesA3S_same widenSigned h
  have hadd : exec (.add ⟨t, t, t⟩) s = .next (s.retire r (fAdd (s.x r) (s.x r))) :=
    execA3S_next (hS.arityOk rfl) hS
  have hsub : exec (.sub ⟨t, t, t⟩) s = .next (s.retire r (fSub (s.x r) (s.x r))) :=
    execA3S_next (hS.arityOk rfl) hS
  have hxor : exec (.xor ⟨t, t, t⟩) s = .next (s.retire r (fXor (s.x r) (s.x r))) :=
    execA3S_next (hS.arityOk rfl) hS
  have hR := sourcesA3R_same h
  have hdivu : exec (.divu ⟨t, t, t⟩) s = .next (s.retire r (fDivu (s.x r) (s.x r))) :=
    execA3R_next (hR.arityOk rfl) hR
  refine ⟨?_, ?_, ?_, ?_⟩
  · rw [hadd, fAdd_self]
  · rw [hsub, fSub_self]
  · rw [hxor, fXor_self]
  · rw [hdivu, fDivu_self]

end Sys2Proof.Machine
end

