-- ==== Sys2Proof/Proofs/Transactions.lean ====
section
/-! PROOFS. Proofs/Transactions.lean: how one line ends (R80), and a program as the fold of the transaction
over its lines (R94). -/

namespace Sys2Proof.Machine

/-- A transaction on an admitted line answers a next state (R80). -/
theorem execute_admitted {line : Line} {s : State} (h : Admitted s.cfg line) :
    ∃ t, execute line s = .next t ∧ EndsFrom s t := by
  rcases execute_cases line s with ⟨hlong, -⟩ | ⟨-, ht⟩
  · cases (not_tooLong_of_admitted h).symm.trans hlong
  · exact ht

/-- Settles O39: by the three ways a transaction can end. -/
theorem everyLineEndsOkOrErr : Obligations.EveryLineEndsOkOrErr := by
  intro line s hadm
  obtain ⟨t, hx, hends⟩ := execute_admitted hadm
  refine ⟨t, hx, hends.cfg, hends.input, ?_⟩
  rcases hends with ⟨e, rfl⟩ | rfl | ⟨rd, v, -, rfl⟩
  · exact .inr ⟨e, rfl, rfl⟩
  · exact .inl ⟨rfl, 0, fun j _ => rfl⟩
  · exact .inl ⟨rfl, rd, fun j hj => slotWord_setSlot_other s.rf v hj⟩

/-- One line of a program: the step takes it and leaves the rest presented, and running it alone ends in the
same state but for the lines still to come (R36, R94). -/
theorem step_and_execute_of_admitted {line : Line} {rest : List Line} {s : State} (h : Admitted s.cfg line) :
    ∃ t : State, step (s.withInput (line :: rest)) = .next (t.withInput rest) ∧
      execute line (s.withInput []) = .next (t.withInput []) ∧ t.cfg = s.cfg := by
  obtain ⟨t, hx, hends⟩ := execute_admitted h
  have hany (l : List Line) : execute line (s.withInput l) = .next (t.withInput l) := by
    rw [execute_withInput, hx]
    rfl
  exact ⟨t, (step_of_input_cons rfl).trans (hany rest), hany [], hends.cfg⟩

/-- A run that begins with a step that answers a next state goes on from there. -/
theorem run_of_step {s t : State} (h : step s = .next t) (k : Nat) :
    Host.Core.run Sys2Proof.core (k + 1) s = Host.Core.run Sys2Proof.core k t := by
  have hcore : Sys2Proof.core.step s = .next t := h
  exact (run_succ Sys2Proof.core k s).trans (by rw [hcore])

/-- Settles O48, by induction on the lines, from the state that the first of them ends in. -/
theorem stepsFoldTheTransactionsOverTheLines : Obligations.StepsFoldTheTransactionsOverTheLines := by
  intro lines
  induction lines with
  | nil => exact fun s _ => ⟨s.withInput [], rfl, rfl, rfl⟩
  | cons line rest ih =>
    intro s hadm
    rw [List.forall_mem_cons] at hadm
    obtain ⟨hline, hrest⟩ := hadm
    obtain ⟨t, hstep, hx, hcfg⟩ := step_and_execute_of_admitted (rest := rest) hline
    obtain ⟨u, hrun, hlines, hin⟩ := ih t (hcfg ▸ hrest)
    refine ⟨u, (run_of_step hstep rest.length).trans hrun, ?_, hin⟩
    rw [runLines, hx]
    exact hlines

end Sys2Proof.Machine
end

