-- ==== Sys2Proof/Proofs/ArithLogic.lean ====
section
/-! PROOFS. Proofs/ArithLogic.lean: what the 20 arithmetic, logic, shift and compare mnemonics write (R150 to
R169), and the errors an EXEC instruction can end in (R146, R179, R185). -/

namespace Sys2Proof.Machine

/-! ### The shifts of a 32-bit machine -/

/-- Under the default mask the amount is the low 5 bits of the second source (R147, D15). -/
theorem shiftAmount_eq_mod {c : Config} (b : Word) (h : c.shamtMask = 0x1F) : shiftAmount c b = b.toNat % 32 := by
  rw [shiftAmount, h, BitVec.toNat_and]
  exact Nat.and_two_pow_sub_one_eq_mod b.toNat 5

theorem w32_uval_mul_two_pow (a : Word) (n : Nat) : w32 (uval a * 2 ^ n) = a <<< n := by
  have hcast : uval a * 2 ^ n = ((a.toNat <<< n : Nat) : Int) := by
    rw [Nat.shiftLeft_eq]
    push_cast
    rfl
  rw [hcast, w32, BitVec.ofInt_natCast]
  rfl

theorem w32_uval_fdiv_two_pow (a : Word) (n : Nat) : w32 (Int.fdiv (uval a) (2 ^ n)) = a >>> n := by
  have hcast : Int.fdiv (uval a) (2 ^ n) = ((a.toNat >>> n : Nat) : Int) := by
    rw [Int.fdiv_eq_ediv_of_nonneg _ (by positivity), Nat.shiftRight_eq_div_pow]
    push_cast
    rfl
  apply BitVec.eq_of_toNat_eq
  rw [hcast, w32, BitVec.ofInt_natCast, BitVec.toNat_ofNat, ← BitVec.toNat_ushiftRight,
    Nat.mod_eq_of_lt (BitVec.isLt _)]

theorem w32_sval_fdiv_two_pow (a : Word) (n : Nat) : w32 (Int.fdiv (sval a) (2 ^ n)) = a.sshiftRight n := by
  rw [Int.fdiv_eq_ediv_of_nonneg _ (by positivity), BitVec.sshiftRight, Int.shiftRight_eq_div_pow]
  push_cast
  rfl

/-- Settles O28: each handler's formula is the shift by the masked amount, which is the amount modulo 32. -/
theorem shiftAmountIsTheLowFiveBits : Obligations.ShiftAmountIsTheLowFiveBits := by
  intro c a b hmask
  have hsll : fSll c a b = a <<< (b.toNat % 32) := by
    rw [fSll, shiftAmount_eq_mod b hmask, w32_uval_mul_two_pow]
  have hsrl : fSrl c a b = a >>> (b.toNat % 32) := by
    rw [fSrl, shiftAmount_eq_mod b hmask, w32_uval_fdiv_two_pow]
  have hsra : fSra c a b = a.sshiftRight (b.toNat % 32) := by
    rw [fSra, shiftAmount_eq_mod b hmask, w32_sval_fdiv_two_pow]
  refine ⟨hsll, hsrl, hsra, fun hzero => ⟨?_, ?_, ?_⟩⟩
  · rw [hsll, hzero, BitVec.shiftLeft_zero]
  · rw [hsrl, hzero, BitVec.ushiftRight_zero]
  · rw [hsra, hzero, BitVec.sshiftRight_zero]

/-! ### The errors of the EXEC formats -/

/-- A token that is there and names no register is malformed, whatever its position (R57, R184). -/
theorem reg_error_of_ne_nil {c : Config} {p : Nat} {tok : Token} {e : DecodeError} (hne : tok ≠ [])
    (h : reg c p tok = .error e) : ∃ t, t ≠ [] ∧ e = .malformedRegisterName t := by
  rcases reg_error h with ⟨hnil, -⟩ | ⟨-, he⟩
  · exact absurd hnil hne
  · exact ⟨tok, hne, he⟩

/-- Three A3S operands that do not resolve: a register name, or the immediate in the third place (R146). -/
theorem operandsA3S_error_of_count {s : State} {widen : Int → Word} {o : Operands} {e : DecodeError}
    (hc : o.count = 3) (h : operandsA3S s widen o = .error e) :
    (∃ tok, tok ≠ [] ∧ e = .malformedRegisterName tok) ∨
    (startsImmediate o.op3 = true ∧ e = .immediateOutOfRange o.op3) := by
  obtain ⟨h1, h2, h3⟩ := ops_ne_nil_of_count hc
  rcases operandsA3S_error h with h | ⟨_, -, h⟩ | ⟨_, _, -, -, ⟨hs, h⟩ | ⟨-, h⟩⟩
  · exact .inl (reg_error_of_ne_nil h1 h)
  · exact .inl (reg_error_of_ne_nil h2 h)
  · exact .inr ⟨hs, immval_error h⟩
  · exact .inl (reg_error_of_ne_nil h3 h)

/-- Three A3R operands that do not resolve: a register name (R179). -/
theorem operandsA3R_error_of_count {s : State} {o : Operands} {e : DecodeError}
    (hc : o.count = 3) (h : operandsA3R s o = .error e) :
    ∃ tok, tok ≠ [] ∧ e = .malformedRegisterName tok := by
  obtain ⟨h1, h2, h3⟩ := ops_ne_nil_of_count hc
  rcases operandsA3R_error h with h | ⟨_, -, h⟩ | ⟨_, _, -, -, h⟩
  · exact reg_error_of_ne_nil h1 h
  · exact reg_error_of_ne_nil h2 h
  · exact reg_error_of_ne_nil h3 h

/-- Settles O37: the count fails, or one of the three operands it found present does not resolve; the
ways of ending `Ok` carry no error. -/
theorem errorsOfTheExecFormats : Obligations.ErrorsOfTheExecFormats := by
  intro i s t e hn h he
  rcases exec_cases i s with ⟨-, hx⟩ | ⟨-, -, hx⟩ | ⟨ha, -, hf, ⟨e', hop, hx⟩ | ⟨_, _, _, _, -, hx⟩⟩ |
      ⟨ha, -, -, ⟨e', hop, hx⟩ | ⟨_, _, _, _, -, hx⟩⟩ <;>
    cases hx.symm.trans h <;> cases he
  · exact .inl rfl
  · rcases operandsA3S_error_of_count (ha.count_exec hn) hop with hreg | ⟨hs, himm⟩
    · exact .inr (.inl hreg)
    · exact .inr (.inr ⟨hf, hs, himm⟩)
  · exact .inr (.inl (operandsA3R_error_of_count (ha.count_exec hn) hop))

/-! ### What the mnemonics write -/

/-- An A3S instruction whose operands resolve has its three operands, so it retires the word its handler gives
(R54, R84). -/
theorem execA3S_of_sources {i : Instr} {widen : Int → Word} {f : Word → Word → Word} {s : State} {rd : Nat}
    {a b : Word} (hn : isNoop i = false) (h : SourcesA3S s widen i.operands rd a b) :
    execA3S i widen f s = .next (s.retire rd (f a b)) :=
  execA3S_next (h.arityOk hn) h

/-- Settles O17: `add` and `addi` run handler ADD, `sub` and `subi` handler SUB. -/
theorem addAndSubWriteTheWrappedResult : Obligations.AddAndSubWriteTheWrappedResult := by
  intro s o rd a b h
  refine ⟨?add, ?addi, ?sub, ?subi⟩
  case add | addi => exact execA3S_of_sources (f := fAdd) rfl h
  case sub | subi => exact execA3S_of_sources (f := fSub) rfl h

/-- Settles O18: the two mnemonics of each pair run the one bitwise handler. -/
theorem bitwiseMnemonicsWriteTheBitwiseResult : Obligations.BitwiseMnemonicsWriteTheBitwiseResult := by
  intro s o rd a b h
  refine ⟨?xor, ?xori, ?or, ?ori, ?and, ?andi⟩
  case xor | xori => exact execA3S_of_sources (f := fXor) rfl h
  case or | ori => exact execA3S_of_sources (f := fOr) rfl h
  case and | andi => exact execA3S_of_sources (f := fAnd) rfl h

/-- Settles O19: the two mnemonics of each pair run the one shift handler, under the parameters of the state. -/
theorem shiftsWriteTheShiftedResult : Obligations.ShiftsWriteTheShiftedResult := by
  intro s o rd a b h
  refine ⟨?sll, ?slli, ?srl, ?srli, ?sra, ?srai⟩
  case sll | slli => exact execA3S_of_sources (f := fSll s.cfg) rfl h
  case srl | srli => exact execA3S_of_sources (f := fSrl s.cfg) rfl h
  case sra | srai => exact execA3S_of_sources (f := fSra s.cfg) rfl h

theorem compareWord_decide (p : Prop) [Decidable p] : compareWord (decide p) = if p then 1 else 0 := by
  simp only [compareWord, decide_eq_true_eq]

theorem fSlt_eq_ite (a b : Word) : fSlt a b = if a.toInt < b.toInt then 1 else 0 := compareWord_decide _

theorem fSltu_eq_ite (a b : Word) : fSltu a b = if a.toNat < b.toNat then 1 else 0 := by
  simp only [fSltu, compareWord_decide, uval, Int.ofNat_lt]

/-- Settles O20: `slt` and `slti` run the signed comparison, `sltu` and `sltiu` the unsigned one. -/
theorem compareHandlersWriteOneOrZero : Obligations.CompareHandlersWriteOneOrZero := by
  intro s o rd a b
  refine ⟨fun h => ?signed, fun h => ?unsigned⟩
  case signed =>
    rw [← fSlt_eq_ite]
    exact ⟨execA3S_of_sources rfl h, execA3S_of_sources rfl h⟩
  case unsigned =>
    rw [← fSltu_eq_ite]
    exact ⟨execA3S_of_sources rfl h, execA3S_of_sources rfl h⟩

end Sys2Proof.Machine
end

