-- ==== Sys2Proof/Proofs/MulDiv.lean ====
section
/-! PROOFS. Proofs/MulDiv.lean: what the 8 multiply and divide mnemonics write (R170 to R177), and what their
handlers compute: the bits of a high word, and the quotient and remainder that belong together. -/

namespace Sys2Proof.Machine

/-! ### The high word of a 64-bit product -/

/-- The high-word formula reads bits 63 to 32 of the 64-bit pattern of any integer (R69, R171). -/
theorem w32_fdiv_eq_extractLsb' (p : Int) : w32 (Int.fdiv p (2 ^ 32)) = (BitVec.ofInt 64 p).extractLsb' 32 32 := by
  apply BitVec.eq_of_toNat_eq
  rw [Int.fdiv_eq_ediv_of_nonneg _ (by positivity), BitVec.extractLsb'_toNat, w32, BitVec.toNat_ofInt,
    BitVec.toNat_ofInt, Nat.shiftRight_eq_div_pow]
  push_cast
  omega

/-- A 64-bit pattern of the signed view is the word sign-extended (R69). -/
theorem ofInt_sval (a : Word) : BitVec.ofInt 64 (sval a) = a.signExtend 64 := rfl

/-- A 64-bit pattern of the unsigned view is the word zero-extended (R69). -/
theorem ofInt_uval (a : Word) : BitVec.ofInt 64 (uval a) = a.setWidth 64 := by
  rw [uval, BitVec.ofInt_natCast, BitVec.ofNat_toNat]

/-- Settles O27: the 64-bit pattern of a product is the product of the factors' patterns, each the word extended
by its own view. -/
theorem highWordsAreBits63To32 : Obligations.HighWordsAreBits63To32 := by
  intro a b
  refine ⟨?mulh, ?mulsu⟩
  case mulh => rw [fMulh, w32_fdiv_eq_extractLsb', BitVec.ofInt_mul, ofInt_sval, ofInt_sval]
  case mulsu => rw [fMulsu, w32_fdiv_eq_extractLsb', BitVec.ofInt_mul, ofInt_sval, ofInt_uval]

/-! ### The quotient and the remainder -/

theorem uval_eq_zero_iff (a : Word) : uval a = 0 ↔ a = 0 := by
  rw [uval, Int.natCast_eq_zero]
  exact BitVec.toNat_eq (y := 0).symm

theorem divOverflows_iff (a b : Word) : divOverflows a b = true ↔ a = 0x80000000 ∧ b = 0xFFFFFFFF := by
  simp only [divOverflows, Bool.and_eq_true, decide_eq_true_eq]

/-- Either rounding divides the overflow pair exactly, so its wrapped quotient is the default of D19 (R174). -/
theorem w32_quotient_overflow (c : Config) :
    w32 (quotient c (sval 0x80000000) (sval 0xFFFFFFFF)) = 0x80000000 := by
  cases h : c.divRounding <;> simp only [quotient, h] <;> decide

/-- The wrapped remainder of the overflow pair is the default of D19 (R176). -/
theorem w32_remainder_overflow (c : Config) :
    w32 (sval 0x80000000 - sval 0xFFFFFFFF * quotient c (sval 0x80000000) (sval 0xFFFFFFFF)) = 0 := by
  rw [w32_sub, w32_mul, w32_quotient_overflow, w32_sval, w32_sval]
  rfl

/-- Away from the overflow pair, and on it by default, DIV writes the wrapped quotient (R174, D19). -/
theorem fDiv_eq_w32_quotient {c : Config} {a b : Word} (hb : b ≠ 0)
    (h : ¬ (a = 0x80000000 ∧ b = 0xFFFFFFFF) ∨ c.divOverflowQuot = 0x80000000) :
    fDiv c a b = w32 (quotient c (sval a) (sval b)) := by
  rw [fDiv, if_neg hb]
  split_ifs with hov
  · rw [divOverflows_iff] at hov
    rw [h.resolve_left (not_not_intro hov), hov.1, hov.2, w32_quotient_overflow]
  · rfl

/-- Away from the overflow pair, and on it by default, REM writes the wrapped remainder (R176, D19). -/
theorem fRem_eq_w32_remainder {c : Config} {a b : Word} (hb : b ≠ 0)
    (h : ¬ (a = 0x80000000 ∧ b = 0xFFFFFFFF) ∨ c.divOverflowRem = 0) :
    fRem c a b = w32 (sval a - sval b * quotient c (sval a) (sval b)) := by
  rw [fRem, if_neg hb]
  split_ifs with hov
  · rw [divOverflows_iff] at hov
    rw [h.resolve_left (not_not_intro hov), hov.1, hov.2, w32_remainder_overflow]
  · rfl

theorem fDivu_of_ne_zero {a b : Word} (hb : b ≠ 0) : fDivu a b = w32 (Int.fdiv (uval a) (uval b)) := if_neg hb

/-- REMU writes the remainder of flooring division (R177). -/
theorem fRemu_of_ne_zero {a b : Word} (hb : b ≠ 0) : fRemu a b = w32 (Int.fmod (uval a) (uval b)) := by
  rw [fRemu, if_neg hb, Int.fmod_def]

/-- Whatever integer is taken for the quotient, the remainder that goes with it gives back the dividend modulo
2^32. -/
theorem w32_mul_add_w32_sub (x y q : Int) : w32 y * w32 q + w32 (x - y * q) = w32 x := by
  rw [w32_sub, w32_mul, add_sub_cancel]

/-- Settles O29: each remainder is the dividend less divisor times quotient, and truncation respects that in both
views. -/
theorem dividendIsDivisorTimesQuotientPlusRemainder : Obligations.DividendIsDivisorTimesQuotientPlusRemainder := by
  intro c a b hb
  refine ⟨fun h => ?signed, ?unsigned⟩
  case signed =>
    rw [w32_add, w32_mul, w32_sval, w32_sval, fDiv_eq_w32_quotient hb (h.imp_right And.left),
      fRem_eq_w32_remainder hb (h.imp_right And.right)]
    simpa only [w32_sval] using w32_mul_add_w32_sub (sval a) (sval b) (quotient c (sval a) (sval b))
  case unsigned =>
    rw [w32_add, w32_mul, w32_uval, w32_uval, fDivu_of_ne_zero hb, fRemu_of_ne_zero hb, Int.fmod_def]
    simpa only [w32_uval] using w32_mul_add_w32_sub (uval a) (uval b) (Int.fdiv (uval a) (uval b))

/-! ### Rounding toward zero -/

theorem quotient_towardZero {c : Config} (h : c.divRounding = .towardZero) (p q : Int) :
    quotient c p q = Int.tdiv p q := by
  rw [quotient, h]

/-- DIV by default: the overflow pair needs no case of its own (R174, D18, D19). -/
theorem fDiv_eq_ite {c : Config} {a b : Word} (hround : c.divRounding = .towardZero)
    (hquot : c.divOverflowQuot = 0x80000000) :
    fDiv c a b = if uval b = 0 then 0xFFFFFFFF else w32 (Int.tdiv (sval a) (sval b)) := by
  simp only [uval_eq_zero_iff]
  split_ifs with hb
  · exact if_pos hb
  · rw [fDiv_eq_w32_quotient hb (.inr hquot), quotient_towardZero hround]

/-- REM by default: the overflow pair needs no case of its own (R176, D18, D19). -/
theorem fRem_eq_ite {c : Config} {a b : Word} (hround : c.divRounding = .towardZero) (hrem : c.divOverflowRem = 0) :
    fRem c a b = if uval b = 0 then a else w32 (sval a - sval b * Int.tdiv (sval a) (sval b)) := by
  simp only [uval_eq_zero_iff]
  split_ifs with hb
  · exact if_pos hb
  · rw [fRem_eq_w32_remainder hb (.inr hrem), quotient_towardZero hround]

/-! ### The size of the remainder and the quotient -/

/-- Wrapping to a word does not make an integer larger in magnitude (R69). -/
theorem natAbs_sval_w32_le (n : Int) : (sval (w32 n)).natAbs ≤ n.natAbs := by
  rw [sval, w32, BitVec.toInt_ofInt, Int.bmod_def]
  push_cast
  split <;> omega

theorem sval_ne_zero {b : Word} (hb : b ≠ 0) : sval b ≠ 0 :=
  fun h => hb (by rw [← w32_sval b, h]; rfl)

theorem natAbs_tmod_lt (x : Int) {y : Int} (hy : y ≠ 0) : (Int.tmod x y).natAbs < y.natAbs := by
  rw [Int.natAbs_tmod]
  exact Nat.mod_lt _ (Int.natAbs_pos.mpr hy)

/-- The remainder of rounding toward zero is zero or on the dividend's side of zero (R176). -/
theorem tmod_eq_zero_or_pos_iff (x y : Int) : Int.tmod x y = 0 ∨ (0 < Int.tmod x y ↔ 0 < x) := by
  have hsign := Int.sign_tmod x y
  split at hsign
  · exact .inl (Int.sign_eq_zero_iff_zero.mp hsign)
  · exact .inr (by rw [← Int.sign_eq_one_iff_pos, hsign, Int.sign_eq_one_iff_pos])

/-- By default REM writes the remainder itself: it is smaller in magnitude than the divisor, so it fits a word
(R176, D18, D19). -/
theorem sval_fRem {c : Config} {a b : Word} (hround : c.divRounding = .towardZero) (hrem : c.divOverflowRem = 0)
    (hb : b ≠ 0) : sval (fRem c a b) = Int.tmod (sval a) (sval b) := by
  rw [fRem_eq_w32_remainder hb (.inr hrem), quotient_towardZero hround, ← Int.tmod_def]
  have hlt := natAbs_tmod_lt (sval a) (sval_ne_zero hb)
  have hmin : -2 ^ 31 ≤ sval b := BitVec.le_toInt b
  have hmax : sval b < 2 ^ 31 := BitVec.toInt_lt
  exact sval_w32 (by omega) (by omega)

/-- The unsigned view of `w32` gives back an integer that fits (R69). -/
theorem uval_w32 {n : Int} (hmin : 0 ≤ n) (hmax : n < 2 ^ 32) : uval (w32 n) = n := by
  rw [uval, w32, BitVec.toNat_ofInt, Int.toNat_of_nonneg (Int.emod_nonneg n (by decide))]
  exact Int.emod_eq_of_lt hmin hmax

/-- REMU writes a word smaller than the divisor (R177). -/
theorem uval_fRemu_lt (a : Word) {b : Word} (hb : b ≠ 0) : uval (fRemu a b) < uval b := by
  have hpos : 0 < uval b := lt_of_le_of_ne (Int.natCast_nonneg _) (Ne.symm (mt (uval_eq_zero_iff b).mp hb))
  have hnonneg : 0 ≤ Int.fmod (uval a) (uval b) := Int.fmod_nonneg (Int.natCast_nonneg _) hpos.le
  have hlt : Int.fmod (uval a) (uval b) < uval b := Int.fmod_lt_of_pos _ hpos
  have hword : uval b < 2 ^ 32 := Int.ofNat_lt.mpr b.isLt
  rw [fRemu_of_ne_zero hb, uval_w32 hnonneg (hlt.trans hword)]
  exact hlt

/-- Settles O30: the remainder fits a word and is that of rounding toward zero, and wrapping the quotient (which the
overflow pair alone needs) does not make it larger. -/
theorem remainderHasTheSignOfTheDividend : Obligations.RemainderHasTheSignOfTheDividend := by
  intro c a b hround hquot hrem hb
  rw [sval_fRem hround hrem hb, fDiv_eq_w32_quotient hb (.inr hquot), quotient_towardZero hround]
  exact ⟨tmod_eq_zero_or_pos_iff _ _, natAbs_tmod_lt _ (sval_ne_zero hb),
    (natAbs_sval_w32_le _).trans (Int.natAbs_tdiv_le_natAbs _ _), uval_fRemu_lt a hb⟩

/-! ### What the mnemonics write -/

/-- An A3R instruction whose operands resolve has its three operands, so it retires the word its handler gives
(R54, R84, R178). -/
theorem execA3R_of_sources {i : Instr} {f : Word → Word → Word} {s : State} {rd : Nat} {a b : Word}
    (hn : isNoop i = false) (h : SourcesA3R s i.operands rd a b) :
    execA3R i f s = .next (s.retire rd (f a b)) :=
  execA3R_next (h.arityOk hn) h

/-- Settles O21: each of the three runs its own handler. -/
theorem multiplicationsWriteTheirWord : Obligations.MultiplicationsWriteTheirWord := by
  intro s o rd a b h
  refine ⟨?mul, ?mulh, ?mulu⟩
  case mul => exact execA3R_of_sources (f := fMul) rfl h
  case mulh => exact execA3R_of_sources (f := fMulh) rfl h
  case mulu => exact execA3R_of_sources (f := fMulu) rfl h

/-- Settles O22: `mulsu` runs handler MULSU. -/
theorem mulsuWritesTheHighWord : Obligations.MulsuWritesTheHighWord :=
  fun _ _ _ _ _ h => execA3R_of_sources (f := fMulsu) rfl h

/-- Settles O23: `divu` and `remu` run their handlers, which test the divisor for zero as a word. -/
theorem unsignedDivisionsWriteQuotientAndRemainder : Obligations.UnsignedDivisionsWriteQuotientAndRemainder := by
  intro s o rd a b h
  simp only [uval_eq_zero_iff, Int.fmod_def]
  exact ⟨execA3R_of_sources (f := fDivu) rfl h, execA3R_of_sources (f := fRemu) rfl h⟩

/-- Settles O24: `div` and `rem` run their handlers, which by default need no case for the overflow pair. -/
theorem signedDivisionsTruncate : Obligations.SignedDivisionsTruncate := by
  intro s o rd a b h hround hquot hrem
  rw [← fDiv_eq_ite hround hquot, ← fRem_eq_ite hround hrem]
  exact ⟨execA3R_of_sources rfl h, execA3R_of_sources rfl h⟩

end Sys2Proof.Machine
end

