-- ==== Sys2Proof/Proofs/Exceptions.lean ====
section
/-! PROOFS. Proofs/Exceptions.lean: which lines end in UnknownInstruction (R182) and which instructions in
ArityError (R183), and what an error leaves unchanged (R190). -/

namespace Sys2Proof.Machine

/-! ### ArityError -/

/-- Stage 6 fails on a gap or on a count other than the mnemonic's (R54, R183). -/
theorem not_arityOk_iff {c : Config} {i : Instr} :
    ¬ ArityOk c i ↔ i.operands.gap = true ∨ i.operands.count ≠ i.arity c := by
  rw [ArityOk, not_and_or, Bool.not_eq_false]

/-- An instruction ends in an ArityError only at stage 6: the operands that stage 7 resolves fail in other
errors (R146, R179, R183). -/
theorem not_arityOk_of_exec_arityError {i : Instr} {s t : State} {mn : Token} (h : exec i s = .next t)
    (he : t.execOut = some (.err (.arityError mn))) : ¬ ArityOk s.cfg i ∧ mn = i.mnemonic := by
  rcases exec_cases i s with ⟨hna, hx⟩ | ⟨-, -, hx⟩ | ⟨ha, hn, -, ⟨e, hop, hx⟩ | ⟨_, _, _, _, -, hx⟩⟩ |
      ⟨ha, hn, -, ⟨e, hop, hx⟩ | ⟨_, _, _, _, -, hx⟩⟩ <;>
    cases hx.symm.trans h <;> cases he
  · exact ⟨hna, rfl⟩
  · rcases operandsA3S_error_of_count (ha.count_exec hn) hop with ⟨_, -, heq⟩ | ⟨-, heq⟩ <;> cases heq
  · obtain ⟨_, -, heq⟩ := operandsA3R_error_of_count (ha.count_exec hn) hop
    cases heq

/-- A NOOP instruction resolves no operand, so the count is all that can fail (R83, R183). -/
theorem exec_noop_error {i : Instr} {s t : State} {e : DecodeError} (hn : isNoop i = true)
    (h : exec i s = .next t) (he : t.execOut = some (.err e)) : e = .arityError i.mnemonic := by
  by_cases ha : ArityOk s.cfg i
  · cases (exec_noop hn ha).symm.trans h
    cases he
  · cases (exec_of_not_arityOk ha).symm.trans h
    cases he
    rfl

/-- Settles O35: stage 6 is the one place where an ArityError arises, and a NOOP mnemonic has no stage after it
that fails. -/
theorem arityErrorExactlyOnAWrongCount : Obligations.ArityErrorExactlyOnAWrongCount := by
  intro i s
  refine ⟨fun hwrong => exec_of_not_arityOk (not_arityOk_iff.mpr hwrong), fun t mn h he => ?_,
    fun hn t e h he => exec_noop_error hn h he⟩
  obtain ⟨hna, hmn⟩ := not_arityOk_of_exec_arityError h he
  exact ⟨hmn, not_arityOk_iff.mp hna⟩

/-! ### UnknownInstruction -/

/-- An instruction's mnemonic is in the table, so it ends in other errors (R146, R179, R182, R183). -/
theorem exec_ne_unknownInstruction {i : Instr} {s t : State} (h : exec i s = .next t) (mn : Token) :
    t.execOut ≠ some (.err (.unknownInstruction mn)) := by
  intro he
  cases hn : isNoop i with
  | true => cases exec_noop_error hn h he
  | false =>
    rcases errorsOfTheExecFormats i s t _ hn h he with heq | ⟨_, -, heq⟩ | ⟨-, -, heq⟩ <;> cases heq

/-- The decoder rejects a line exactly when its first token begins no comment and is off the table
(R47, R52, R64). -/
theorem decode_eq_unknownInstruction_iff {c : Config} {line : Line} {mn : Token} :
    decode c line = .illegal (.unknownInstruction mn) ↔
      (lineTokens c line).head? = some mn ∧ startsComment mn = false ∧ lookup mn = none := by
  rw [decode_eq_decodeTokens]
  cases lineTokens c line with
  | nil => simp [decodeTokens]
  | cons tok ts =>
    rw [List.head?_cons, Option.some.injEq]
    constructor
    · intro h
      simp only [decodeTokens] at h
      split at h
      · cases h
      · rename_i hcomment
        split at h
        · rename_i hlookup
          cases h
          exact ⟨rfl, Bool.not_eq_true _ ▸ hcomment, hlookup⟩
        · cases h
    · rintro ⟨rfl, hcomment, hlookup⟩
      simp only [decodeTokens, hcomment, Bool.false_eq_true, if_false, hlookup]

/-- An admitted line ends in UnknownInstruction exactly when the decoder rejects it with that (R64, R182). -/
theorem execute_eq_unknownInstruction_iff {line : Line} {s : State} {mn : Token} (ha : Admitted s.cfg line) :
    execute line s = .next (s.report (.err (.unknownInstruction mn))) ↔
      decode s.cfg line = .illegal (.unknownInstruction mn) := by
  refine ⟨fun h => ?_, execute_of_decode_illegal ha⟩
  cases hd : decode s.cfg line with
  | empty => cases (execute_of_decode_empty ha hd).symm.trans h
  | illegal e =>
    cases (execute_of_decode_illegal ha hd).symm.trans h
    rfl
  | instr i =>
    rw [execute_of_decode_instr ha hd] at h
    exact absurd rfl (exec_ne_unknownInstruction h mn)

/-- Settles O11: the decoder rejects such lines and no others, and a token of a line is never empty. -/
theorem unknownInstructionExactlyOffTheTable : Obligations.UnknownInstructionExactlyOffTheTable := by
  intro s line mn ha
  rw [execute_eq_unknownInstruction_iff ha, decode_eq_unknownInstruction_iff, tokens_normalize]
  constructor
  · rintro ⟨hhead, hcomment, hlookup⟩
    exact ⟨hhead, (mem_lineTokens (List.mem_of_head? hhead)).1, hcomment, lookup_none.mp hlookup⟩
  · rintro ⟨hhead, -, hcomment, htable⟩
    exact ⟨hhead, hcomment, lookup_none.mpr htable⟩

/-! ### What an error leaves unchanged -/

/-- Settles O38: of the ways a transaction can end, the one that carries an error changes the outcome only. -/
theorem anErrorChangesNothingElse : Obligations.AnErrorChangesNothingElse :=
  fun _ _ _ _ hx he => (execute_ends hx).eq_report_of_err he

end Sys2Proof.Machine
end

