-- ==== Sys2Proof/Proofs/IdleStep.lean ====
section
/-! PROOFS. Proofs/IdleStep.lean: a step with no line presented (R212, log entry 2). -/

namespace Sys2Proof.Machine

/-- With no line presented, no transaction starts: the counterpart of `step_of_input_cons`. -/
theorem step_of_input_nil {s : State} (h : s.input = []) : step s = .next s := by
  simp only [step, nextTransaction, h]

/-- Settles O44: a step with no line presented starts no transaction. -/
theorem stepWithoutALineHoldsTheState : Obligations.StepWithoutALineHoldsTheState :=
  fun _ => step_of_input_nil

end Sys2Proof.Machine
end

