-- ==== Sys2Proof/Proofs/SignedDivision.lean ====
section
/-! PROOFS. Proofs/SignedDivision.lean: `div` and `rem` for every DIV_ROUNDING and DIV_OVERFLOW (R174, R176, U4,
U5). -/

namespace Sys2Proof.Machine

/-! ### The zero divisor and the overflow pair -/

theorem fDiv_zero_divisor (c : Config) (a : Word) : fDiv c a 0 = 0xFFFFFFFF := if_pos rfl

theorem fRem_zero_divisor (c : Config) (a : Word) : fRem c a 0 = a := if_pos rfl

/-- On the overflow pair DIV writes DIV_OVERFLOW's quotient (R174, U5). -/
theorem fDiv_overflow (c : Config) : fDiv c 0x80000000 0xFFFFFFFF = c.divOverflowQuot := by
  rw [fDiv, if_neg (by decide), if_pos ((divOverflows_iff _ _).mpr ⟨rfl, rfl⟩)]

/-- On the overflow pair REM writes DIV_OVERFLOW's remainder (R176, U5). -/
theorem fRem_overflow (c : Config) : fRem c 0x80000000 0xFFFFFFFF = c.divOverflowRem := by
  rw [fRem, if_neg (by decide), if_pos ((divOverflows_iff _ _).mpr ⟨rfl, rfl⟩)]

/-! ### The other pairs -/

theorem quotient_towardMinusInfinity {c : Config} (h : c.divRounding = .towardMinusInfinity) (p q : Int) :
    quotient c p q = Int.fdiv p q := by
  rw [quotient, h]

/-- Off the two special cases the remainder goes with the quotient that DIV writes, in either rounding (R176,
U4). -/
theorem fRem_eq_sub_mul_fDiv (c : Config) {a b : Word} (hb : b ≠ 0) (hov : ¬ (a = 0x80000000 ∧ b = 0xFFFFFFFF)) :
    fRem c a b = a - b * fDiv c a b := by
  rw [fRem_eq_w32_remainder hb (.inl hov), fDiv_eq_w32_quotient hb (.inl hov), w32_sub, w32_mul, w32_sval, w32_sval]

/-! ### What the mnemonics write -/

/-- Settles O25: `div` and `rem` run their handlers, which treat the zero divisor, the overflow pair and the other
pairs apart. -/
theorem signedDivisionsCompleteInEveryRounding : Obligations.SignedDivisionsCompleteInEveryRounding := by
  intro s o rd a b h
  refine ⟨fDiv s.cfg a b, fRem s.cfg a b, execA3R_of_sources rfl h, execA3R_of_sources rfl h,
    ?zeroDivisor, ?overflowPair, ?otherPairs⟩
  case zeroDivisor =>
    rintro rfl
    exact ⟨fDiv_zero_divisor s.cfg a, fRem_zero_divisor s.cfg a⟩
  case overflowPair =>
    rintro ⟨rfl, rfl⟩
    exact ⟨fDiv_overflow s.cfg, fRem_overflow s.cfg⟩
  case otherPairs =>
    intro hb hov
    rw [fRem_eq_sub_mul_fDiv s.cfg hb hov, fDiv_eq_w32_quotient hb (.inl hov)]
    exact ⟨fun hround => by rw [quotient_towardZero hround],
      fun hround => by rw [quotient_towardMinusInfinity hround], rfl⟩

end Sys2Proof.Machine
end

