-- ==== Sys2Proof/Proofs/LongLines.lean ====
section
/-! PROOFS. Proofs/LongLines.lean: a line that LINE_MAX does not admit (U7, log entry 9). -/

namespace Sys2Proof.Machine

/-- A line over the bound is too long: the counterpart of `not_tooLong_of_admitted`. -/
theorem tooLong_of_lt_length {c : Config} {line : Line} {m : Nat} (hm : c.lineMax = some m)
    (hlen : m < line.length) : tooLong c line = true := by
  simp only [tooLong, hm, hlen, decide_true]

/-- A line that is too long is refused before it is decoded: the counterpart of `execute_eq`. -/
theorem execute_of_tooLong {line : Line} {s : State} (h : tooLong s.cfg line = true) :
    execute line s = .refused (.lineTooLong line.length) :=
  if_pos h

/-- Settles O45: the step hands the whole line to the transaction, which refuses it with its full length. -/
theorem lineLongerThanTheBoundIsRefused : Obligations.LineLongerThanTheBoundIsRefused :=
  fun _ _ _ _ hm hinput hlen =>
    (step_of_input_cons hinput).trans (execute_of_tooLong (tooLong_of_lt_length hm hlen))

end Sys2Proof.Machine
end
